-- ==== Sys2Proof/Word.lean ====
section
/-! DEFINITION. The word types of the base85 codec core: a character or byte, a 32-bit data word, a 40-bit command word. -/

namespace Sys2Proof

/-- One character or byte, 8 bits (00_scope.md R12). -/
abbrev Byte := BitVec 8

/-- A 32-bit value: `DATA`, `WORD`, `VAL` (30_encoding.md R60, R67; 10_state.md R22). -/
abbrev Word := BitVec 32

/-- The 40-bit command word `CW` (30_encoding.md R60). -/
abbrev CommandWord := BitVec 40

end Sys2Proof
end

