-- ==== Sys2Proof/Syntax.lean ====
section
/-! DEFINITION. The commands of the block, one constructor per row of spec/opcode_table.json (30_encoding.md R62), each
with the operand 30_encoding.md R64 gives it. Bits of `DATA` that R64 marks ignored are no part of a command. -/

namespace Sys2Proof

/-- A command. A character or block byte is a `Byte`. The operand of `LUT.CHAR` is an unsigned number and that of the
`LEN` commands a signed number (R64, R72); that they fit in 32 bits is a check of WellFormed. -/
inductive Instr where
  /-- `NOP` (44_control.md R170). -/
  | nop
  /-- `ENC.1 b0` (42_encoder.md R122). -/
  | enc1 (b0 : Byte)
  /-- `ENC.2 b0, b1` (42_encoder.md R122). -/
  | enc2 (b0 b1 : Byte)
  /-- `ENC.3 b0, b1, b2` (42_encoder.md R122). -/
  | enc3 (b0 b1 b2 : Byte)
  /-- `ENC.4 b0, b1, b2, b3` (42_encoder.md R122). -/
  | enc4 (b0 b1 b2 b3 : Byte)
  /-- `DEC.CHAR c` (43_decoder.md R143). -/
  | decChar (c : Byte)
  /-- `DEC.FINAL` (43_decoder.md R144). -/
  | decFinal
  /-- `DEC.CLEAR` (43_decoder.md R145). -/
  | decClear
  /-- `DEC.RDW` (43_decoder.md R146). -/
  | decRdw
  /-- `DEC.RDM` (43_decoder.md R147). -/
  | decRdm
  /-- `LUT.MEM c` (40_alphabet_lut.md R82). -/
  | lutMem (c : Byte)
  /-- `LUT.CODE c` (40_alphabet_lut.md R83). -/
  | lutCode (c : Byte)
  /-- `LUT.CHAR i` (40_alphabet_lut.md R84). -/
  | lutChar (i : Nat)
  /-- `LEN.ENC n` (41_length.md R103). -/
  | lenEnc (n : Int)
  /-- `LEN.DEC n` (41_length.md R104). -/
  | lenDec (n : Int)
  deriving DecidableEq, Repr

end Sys2Proof
end

