-- ==== Sys2Proof/WellFormed.lean ====
section
/-! DEFINITION. Which commands the 40-bit format can carry (30_encoding.md R64, R72). -/

namespace Sys2Proof

/-- An index that fits in `DATA[31:0]` read unsigned (30_encoding.md R64). -/
def indexFits (i : Nat) : Bool := decide (i < 2 ^ 32)

/-- A length that fits in `DATA[31:0]` read as two's-complement signed (30_encoding.md R64; 00_scope.md R11). -/
def lengthFits (n : Int) : Bool := decide (-2 ^ 31 ≤ n) && decide (n < 2 ^ 31)

/-- The check: the number operands fit in 32 bits. Every other operand is a byte and fits. -/
def Instr.wf : Instr → Bool
  | .nop => true
  | .enc1 _ => true
  | .enc2 _ _ => true
  | .enc3 _ _ _ => true
  | .enc4 _ _ _ _ => true
  | .decChar _ => true
  | .decFinal => true
  | .decClear => true
  | .decRdw => true
  | .decRdm => true
  | .lutMem _ => true
  | .lutCode _ => true
  | .lutChar i => indexFits i
  | .lenEnc n => lengthFits n
  | .lenDec n => lengthFits n

/-- A command the 40-bit command word can carry. -/
abbrev Instr.WellFormed (i : Instr) : Prop := i.wf = true

end Sys2Proof
end

