-- ==== Sys2Proof/Decode.lean ====
section
/-! DEFINITION. The command word: its fields, the decoder (total: every 40-bit word is one row of 30_encoding.md R62 or
reserved, R66) and the encoder, which is the assembler's operand rule (R72). -/

namespace Sys2Proof

/-- `OPC = CW[7:0]` (30_encoding.md R60). -/
def CommandWord.opc (cw : CommandWord) : Byte := cw.extractLsb' 0 8

/-- `DATA = CW[39:8]` (30_encoding.md R60). -/
def CommandWord.data (cw : CommandWord) : Word := cw.extractLsb' 8 32

/-- Byte j of `DATA`, or of another 32-bit value: `v[8j+7:8j]` (00_scope.md R13; 20_memory.md R41). -/
def dataByte (data : Word) (j : Nat) : Byte := data.extractLsb' (8 * j) 8

/-- `CW = {DATA, OPC}` (30_encoding.md R60). -/
def commandWord (data : Word) (opc : Byte) : CommandWord := data ++ opc

/-- What the decoder makes of a command word: a row of the opcode map, or a reserved opcode, rejected by its name. -/
inductive Decoded where
  /-- One row of 30_encoding.md R62. -/
  | command (i : Instr)
  /-- `OPC` is not assigned (30_encoding.md R66). -/
  | reserved (opc : Byte)
  deriving DecidableEq, Repr

/-- The command an assigned opcode and its `DATA` stand for, none for a reserved opcode (30_encoding.md R62, R64). -/
def decodeFields (opc : Byte) (data : Word) : Option Instr :=
  match opc.toNat with
  | 0x00 => some .nop
  | 0x10 => some (.enc1 (dataByte data 0))
  | 0x11 => some (.enc2 (dataByte data 0) (dataByte data 1))
  | 0x12 => some (.enc3 (dataByte data 0) (dataByte data 1) (dataByte data 2))
  | 0x13 => some (.enc4 (dataByte data 0) (dataByte data 1) (dataByte data 2) (dataByte data 3))
  | 0x20 => some (.decChar (dataByte data 0))
  | 0x21 => some .decFinal
  | 0x22 => some .decClear
  | 0x23 => some .decRdw
  | 0x24 => some .decRdm
  | 0x30 => some (.lutMem (dataByte data 0))
  | 0x31 => some (.lutCode (dataByte data 0))
  | 0x32 => some (.lutChar data.toNat)
  | 0x40 => some (.lenEnc data.toInt)
  | 0x41 => some (.lenDec data.toInt)
  | _ => none

/-- The decoder, total on every 40-bit word (30_encoding.md R66). -/
def decode (cw : CommandWord) : Decoded :=
  match decodeFields cw.opc cw.data with
  | some i => .command i
  | none => .reserved cw.opc

/-- The bits of `DATA` a command reads: the complement of the ignored bits of 30_encoding.md R64. A reserved command
reads none (44_control.md R171). -/
def readMask (opc : Byte) : Word :=
  match opc.toNat with
  | 0x10 => 0x000000FF
  | 0x11 => 0x0000FFFF
  | 0x12 => 0x00FFFFFF
  | 0x13 => 0xFFFFFFFF
  | 0x20 => 0x000000FF
  | 0x30 => 0x000000FF
  | 0x31 => 0x000000FF
  | 0x32 => 0xFFFFFFFF
  | 0x40 => 0xFFFFFFFF
  | 0x41 => 0xFFFFFFFF
  | _ => 0

/-- The units of the block (30_encoding.md R61). -/
inductive CodecUnit where
  | control
  | encoder
  | decoder
  | alphabetLut
  | length
  deriving DecidableEq, Repr

/-- `OPC[7:4]` of a unit's commands (30_encoding.md R61). -/
def CodecUnit.code : CodecUnit → BitVec 4
  | .control => 0
  | .encoder => 1
  | .decoder => 2
  | .alphabetLut => 3
  | .length => 4

/-- The unit a command belongs to (30_encoding.md R62). -/
def Instr.codecUnit : Instr → CodecUnit
  | .nop => .control
  | .enc1 _ => .encoder
  | .enc2 _ _ => .encoder
  | .enc3 _ _ _ => .encoder
  | .enc4 _ _ _ _ => .encoder
  | .decChar _ => .decoder
  | .decFinal => .decoder
  | .decClear => .decoder
  | .decRdw => .decoder
  | .decRdm => .decoder
  | .lutMem _ => .alphabetLut
  | .lutCode _ => .alphabetLut
  | .lutChar _ => .alphabetLut
  | .lenEnc _ => .length
  | .lenDec _ => .length

/-- The opcode of a command (30_encoding.md R62). -/
def Instr.opc : Instr → Byte
  | .nop => 0x00
  | .enc1 _ => 0x10
  | .enc2 _ _ => 0x11
  | .enc3 _ _ _ => 0x12
  | .enc4 _ _ _ _ => 0x13
  | .decChar _ => 0x20
  | .decFinal => 0x21
  | .decClear => 0x22
  | .decRdw => 0x23
  | .decRdm => 0x24
  | .lutMem _ => 0x30
  | .lutCode _ => 0x31
  | .lutChar _ => 0x32
  | .lenEnc _ => 0x40
  | .lenDec _ => 0x41

/-- `zext_32(b)` (00_scope.md R14). -/
def zext32 (b : Byte) : Word := b.setWidth 32

/-- The `DATA` a command assembles to, ignored bits 0 (30_encoding.md R72). -/
def Instr.data : Instr → Word
  | .nop => 0
  | .enc1 b0 => zext32 b0
  | .enc2 b0 b1 => (b1 ++ b0).setWidth 32
  | .enc3 b0 b1 b2 => (b2 ++ b1 ++ b0).setWidth 32
  | .enc4 b0 b1 b2 b3 => b3 ++ b2 ++ b1 ++ b0
  | .decChar c => zext32 c
  | .decFinal => 0
  | .decClear => 0
  | .decRdw => 0
  | .decRdm => 0
  | .lutMem c => zext32 c
  | .lutCode c => zext32 c
  | .lutChar i => BitVec.ofNat 32 i
  | .lenEnc n => BitVec.ofInt 32 n
  | .lenDec n => BitVec.ofInt 32 n

/-- The encoder: the command word a command assembles to (30_encoding.md R60, R72). -/
def encode (i : Instr) : CommandWord := commandWord i.data i.opc

/-- The command the decoder reads from the word whose low `nbits` bits are those of `w`, bits above them 0. The block
has no memory, so a command word is on the port as it is numbered (30_encoding.md R60, R70). -/
def decodeTableWord (nbits w : Nat) : Option Instr :=
  match decode (BitVec.ofNat 40 (w % 2 ^ nbits)) with
  | .command i => some i
  | .reserved _ => none

end Sys2Proof
end

