-- ==== Sys2Proof/Machine/Operands.lean ====
section
/-! DEFINITION. Reading operands and bytes: the little-endian value of bytes and the bytes of a word
(20_memory.md R41, R43; 42_encoder.md R120). -/

namespace Sys2Proof.Machine

open Sys2Proof

/-- The little-endian value of a byte sequence, byte 0 least significant: the block value `v` of 42_encoder.md R120, and
the packing of output items of 20_memory.md R44. -/
def leValue : List Byte → Nat
  | [] => 0
  | b :: bs => b.toNat + 256 * leValue bs

/-- The k low bytes of `w`, low byte first (20_memory.md R43). -/
def wordBytes (k : Nat) (w : Word) : List Byte := (List.range k).map (dataByte w)

end Sys2Proof.Machine
end

