-- ==== Sys2Proof/Config.lean ====
section
/-! DEFINITION. What is fixed when the block is built: the sizes the spec fixes, the open parameter `ALPHABET` with the
constraints of 00_scope.md R9, and the parameter `CMD_LATENCY`, which no rule reads. -/

namespace Sys2Proof

/-- A base-85 digit, an alphabet index 0..84 (00_scope.md R10, R17). -/
abbrev Digit := Fin 85

/-- The contents of the forward table: 85 entries of one byte (10_state.md R28; 40_alphabet_lut.md R80). -/
abbrev Alphabet := Vector Byte 85

/-- 00_scope.md R9 (c) and (d) for one entry: printable, in 0x21..0x7E, and neither `"`, `'` nor `\`. -/
abbrev Alphabet.allowedEntry (b : Byte) : Prop :=
  0x21 ≤ b.toNat ∧ b.toNat ≤ 0x7E ∧ b ≠ 0x22 ∧ b ≠ 0x27 ∧ b ≠ 0x5C

/-- The constraints every `ALPHABET` meets (00_scope.md R9): (a) the 85 entries are pairwise distinct, (b) entry 0 is
0x30, (c) and (d) every entry is an allowed one. -/
abbrev Alphabet.Valid (a : Alphabet) : Prop :=
  a.toList.Nodup ∧ a[0] = 0x30 ∧ ∀ b ∈ a.toList, Alphabet.allowedEntry b

namespace Config

/-- `LEN_MAX` for `LEN_W = 32` (00_scope.md R11). -/
def lenMax : Nat := 2147483647

/-- The entries of `sampleAlphabet`: 0x30 first, then the allowed bytes in rising order. -/
def sampleEntries : List Byte :=
  [0x30, 0x21, 0x23, 0x24, 0x25, 0x26, 0x28, 0x29, 0x2A, 0x2B, 0x2C, 0x2D, 0x2E, 0x2F] ++
  [0x31, 0x32, 0x33, 0x34, 0x35, 0x36, 0x37, 0x38, 0x39, 0x3A, 0x3B, 0x3C, 0x3D, 0x3E, 0x3F] ++
  [0x40, 0x41, 0x42, 0x43, 0x44, 0x45, 0x46, 0x47, 0x48, 0x49, 0x4A, 0x4B, 0x4C, 0x4D, 0x4E, 0x4F] ++
  [0x50, 0x51, 0x52, 0x53, 0x54, 0x55, 0x56, 0x57, 0x58, 0x59, 0x5A, 0x5B, 0x5D, 0x5E, 0x5F] ++
  [0x60, 0x61, 0x62, 0x63, 0x64, 0x65, 0x66, 0x67, 0x68, 0x69, 0x6A, 0x6B, 0x6C, 0x6D, 0x6E, 0x6F] ++
  [0x70, 0x71, 0x72, 0x73, 0x74, 0x75, 0x76, 0x77, 0x78]

/-- One table that meets R9. It is NOT the core's alphabet, which the source does not list (91_not_in_source.md N1): it
only shows that R9 can be met (DESIGN CHOICE, safe: log entry 1). -/
def sampleAlphabet : Alphabet := ⟨⟨sampleEntries⟩, by decide⟩

/-- FREE VALUE (log entry 1): the 85 bytes the builder of the block chose. Nothing can be proved about them. -/
opaque alphabetChoice : Alphabet

/-- The build-time parameter `ALPHABET` (00_scope.md R8, OPEN in 92_eei_decisions.md D5): any table that meets R9 and
nothing more. It is the free value `alphabetChoice` where that meets R9; since nothing is known of the choice, what is
proved of `alphabet` holds of every valid table. -/
def alphabet : Alphabet := if Alphabet.Valid alphabetChoice then alphabetChoice else sampleAlphabet

/-- `CMD_LATENCY` (70_reset_and_hazards.md R210): how many clock cycles the hardware takes for the n-th command. An
open parameter that no rule, and no definition of this model, reads (log entry 8). -/
opaque cmdLatency : Nat → Nat

end Config
end Sys2Proof
end

