-- ==== Sys2Proof/Machine/State.lean ====
section
/-! DEFINITION. The state of the block, what it holds after reset, and the reasons a step can stop (none is used). -/

namespace Sys2Proof.Machine

open Sys2Proof

/-- The statuses a response can carry (30_encoding.md R69). Codes 5, 6 and 7 are never produced, so they have no name
(93_implementation_defined.md I12). -/
inductive Status where
  /-- 0, completed normally. -/
  | ok
  /-- 1, reserved opcode (60_exceptions.md R184). -/
  | illegal
  /-- 2, a negative length (60_exceptions.md R182). -/
  | invalidLength
  /-- 3, an encoded length past `LEN_MAX` (60_exceptions.md R183). -/
  | overflow
  /-- 4, an alphabet index of 85 or more (60_exceptions.md R185). -/
  | badIndex
  deriving DecidableEq, Repr

/-- A response record `RSP = (ST, N, OUT, VAL)` (30_encoding.md R67). -/
structure Response where
  st : Status
  n : BitVec 3
  out : BitVec 40
  val : Word
  deriving DecidableEq, Repr

/-- What the host presents on the input ports in one step (30_encoding.md R70). `cmdWord` means something only with
`cmdValid` set. -/
structure PortInput where
  rst : Bool
  cmdValid : Bool
  cmdWord : CommandWord
  deriving DecidableEq, Repr

/-- The state. `word` and `m` are the block's whole mutable state (10_state.md R20) and `alphabet` its read-only
forward table (R28); the code table is computed from `alphabet` and is stored nowhere (40_alphabet_lut.md R81).
`inputs`, `rsp` and `rsps` stand for the ports and the host's side of them (log entries 2, 4 and 5). -/
structure State where
  /-- The forward table, read only (10_state.md R28). -/
  alphabet : Alphabet
  /-- `WORD`, the decoder accumulator (10_state.md R22). -/
  word : Word
  /-- `M`, the decoder's digit count (10_state.md R23). -/
  m : BitVec 3
  /-- What the host presents on `rst`, `cmd_valid` and `cmd_word` in the coming steps, next step first (30_encoding.md
  R70; 10_state.md R25). -/
  inputs : List PortInput
  /-- The response port: `some r` is `rsp_valid` set with the fields of `r`, none is `rsp_valid` clear (30_encoding.md
  R70). -/
  rsp : Option Response
  /-- Every response given so far, oldest first: what a run is observed by (70_reset_and_hazards.md R211). -/
  rsps : List Response
  deriving DecidableEq, Repr

/-- Reasons a step can stop with a fault: there are none, because the block has no traps and every error is a response
(60_exceptions.md R180). -/
inductive Fault where
  deriving DecidableEq, Repr

/-- Reasons a step can be refused. -/
inductive Refusal where
  /-- Raised by an arm of exec whose command has no meaning yet; no arm uses it now. Safe: the machine stops. -/
  | notModelled (mnemonic : String)
  deriving DecidableEq, Repr

/-- Right after reset with the given forward table: `WORD = 0`, `M = 0`, the table as built, no command presented and
no response (10_state.md R32; 70_reset_and_hazards.md R201, R203). -/
def State.resetWith (a : Alphabet) : State where
  alphabet := a
  word := 0
  m := 0
  inputs := []
  rsp := none
  rsps := []

/-- The machine right after reset, its forward table holding `ALPHABET` (10_state.md R32; 70_reset_and_hazards.md
R203). -/
def State.reset : State := State.resetWith Config.alphabet

end Sys2Proof.Machine
end

