-- ==== Sys2Proof/Machine/Ops.lean ====
section
/-! DEFINITION. The shared operations: building a response, reading its items, completing a command with one, reporting
an error, writing the decoder's registers, reset, waiting, and taking what the host presents next. -/

namespace Sys2Proof.Machine

open Sys2Proof

/-- The response with every field at its default and status `OK` (30_encoding.md R68). -/
def Response.plain : Response := ⟨.ok, 0, 0, 0⟩

/-- A response that returns output items: item j is `OUT[8j+7:8j]`, the bits above the last item are 0 and `VAL` is 0
(20_memory.md R44; 30_encoding.md R67, R68). -/
def Response.items (bs : List Byte) : Response :=
  { Response.plain with n := BitVec.ofNat 3 bs.length, out := BitVec.ofNat 40 (leValue bs) }

/-- A response that returns the scalar `VAL`, with `N = 0` and `OUT = 0` (30_encoding.md R67, R68). -/
def Response.value (v : Word) : Response := { Response.plain with val := v }

/-- The response of an error: its status, `N = 0`, `OUT = 0` and `VAL` as the command's rule gives (60_exceptions.md
R181). -/
def Response.error (st : Status) (val : Word) : Response := { Response.plain with st := st, val := val }

/-- Item j of `OUT` (20_memory.md R44). -/
def Response.item (r : Response) (j : Nat) : Byte := r.out.extractLsb' (8 * j) 8

/-- The items 0..N-1 the host appends to its output (20_memory.md R44). -/
def Response.itemList (r : Response) : List Byte := (List.range r.n.toNat).map r.item

/-- The block gives its one response to a command: on the response port, and last in the order of responses
(30_encoding.md R70). -/
def State.respond (s : State) (r : Response) : State := { s with rsp := some r, rsps := s.rsps ++ [r] }

/-- Write `WORD` and `M` (00_scope.md R15). -/
def State.setDecoder (s : State) (w : Word) (m : BitVec 3) : State := { s with word := w, m := m }

/-- A step with no command: `rsp_valid` is clear and nothing else changes (30_encoding.md R70; DEDUCED, log entry 3). -/
def State.idle (s : State) : State := { s with rsp := none }

/-- Reset: `WORD <- 0`, `M <- 0`, no response, the tables as built (70_reset_and_hazards.md R201). -/
def State.applyReset (s : State) : State := (s.setDecoder 0 0).idle

/-- What the host presents in this step and the state without it; none where it presents nothing more (30_encoding.md
R70; log entry 2). -/
def State.takeInput (s : State) : Option (PortInput × State) :=
  match s.inputs with
  | [] => none
  | p :: rest => some (p, { s with inputs := rest })

/-- The host presents a command ahead of whatever else it would present (30_encoding.md R70). -/
def State.presentCommand (s : State) (cw : CommandWord) : State :=
  { s with inputs := { rst := false, cmdValid := true, cmdWord := cw } :: s.inputs }

/-- A command that writes no state completes with its response (20_memory.md R47). -/
def complete (r : Response) (s : State) : Host.Outcome State Fault Refusal := .next (s.respond r)

/-- `raise <Status>`: the command completes with an error status and writes no state. It is the block's only way to
report an error; there is no trap entry, no saved state and no return (00_scope.md R15; 60_exceptions.md R180, R181,
R190). -/
def raise (st : Status) (val : Word) (s : State) : Host.Outcome State Fault Refusal :=
  complete (Response.error st val) s

end Sys2Proof.Machine
end

