-- ==== Sys2Proof/Machine/Control.lean ====
section
/-! DEFINITION. The control unit: `NOP`, and what a reserved opcode does (44_control.md). -/

namespace Sys2Proof.Machine

open Sys2Proof

/-- `NOP` (44_control.md R170). -/
def execNop (s : State) : Host.Outcome State Fault Refusal := complete Response.plain s

/-- A reserved opcode completes with `ILLEGAL` and changes no state (44_control.md R171; 60_exceptions.md R184). -/
def execReserved (s : State) : Host.Outcome State Fault Refusal := raise .illegal 0 s

end Sys2Proof.Machine
end

