-- ==== Sys2Proof/Machine/Tables.lean ====
section
/-! DEFINITION. The two read-only tables of the alphabet_lut (40_alphabet_lut.md R80, R81). -/

namespace Sys2Proof

/-- `ALPHABET[d]`, the forward table (40_alphabet_lut.md R80; 10_state.md R28). -/
def Alphabet.char (a : Alphabet) (d : Digit) : Byte := a[d.val]

/-- `CODE(c)`, the inverse code table, defined from the forward table and nothing else: the digit whose entry is c, or
none, which is `ABSENT` (40_alphabet_lut.md R81, R86; 10_state.md R29). -/
def Alphabet.code (a : Alphabet) (c : Byte) : Option Digit :=
  (List.finRange 85).find? fun d => a.char d == c

/-- `member(c)`, `CODE(c) != ABSENT` (00_scope.md R16). -/
def Alphabet.member (a : Alphabet) (c : Byte) : Bool := (a.code c).isSome

end Sys2Proof
end

