-- ==== Sys2Proof/Machine/Decoder.lean ====
section
/-! DEFINITION. base85_decoder: `DEC.CHAR`, `DEC.FINAL`, `DEC.CLEAR`, `DEC.RDW`, `DEC.RDM` (43_decoder.md). -/

namespace Sys2Proof.Machine

open Sys2Proof

/-- `(WORD + d * 85^M) mod 2^32` (43_decoder.md R140). -/
def accumulate (w : Word) (m : BitVec 3) (d : Digit) : Word := w + BitVec.ofNat 32 (d.val * 85 ^ m.toNat)

/-- A member character of digit d is accepted: accumulate, and flush when it is the fifth of its group (43_decoder.md
R140, R141, R143). `M` above 4 is in no reachable state (10_state.md R24; log entry 7). -/
def acceptDigit (d : Digit) (s : State) : State :=
  let w := accumulate s.word s.m d
  if s.m.toNat + 1 = 5 then (s.setDecoder 0 0).respond (Response.items (wordBytes 4 w))
  else (s.setDecoder w (BitVec.ofNat 3 (s.m.toNat + 1))).respond Response.plain

/-- `DEC.CHAR c`: a non-member is skipped (43_decoder.md R142), a member accepted (R143). -/
def execDecChar (c : Byte) (s : State) : Host.Outcome State Fault Refusal :=
  .next (match s.alphabet.code c with
    | none => s.respond Response.plain
    | some d => acceptDigit d s)

/-- The bytes `DEC.FINAL` emits: M - 1 of them where M is 2 or more, else none (43_decoder.md R144). -/
def trailingBytes (m : BitVec 3) (w : Word) : List Byte :=
  if 2 ≤ m.toNat then wordBytes (m.toNat - 1) w else []

/-- `DEC.FINAL`: emit the trailing partial group and clear the decoder (43_decoder.md R144). -/
def execDecFinal (s : State) : Host.Outcome State Fault Refusal :=
  .next ((s.setDecoder 0 0).respond (Response.items (trailingBytes s.m s.word)))

/-- `DEC.CLEAR`: discard the partial group (43_decoder.md R145). -/
def execDecClear (s : State) : Host.Outcome State Fault Refusal :=
  .next ((s.setDecoder 0 0).respond Response.plain)

/-- `DEC.RDW`: read `WORD` (43_decoder.md R146). -/
def execDecRdw (s : State) : Host.Outcome State Fault Refusal := complete (Response.value s.word) s

/-- `DEC.RDM`: read `M` (43_decoder.md R147). -/
def execDecRdm (s : State) : Host.Outcome State Fault Refusal := complete (Response.value (s.m.setWidth 32)) s

end Sys2Proof.Machine
end

