-- ==== Sys2Proof/Machine/Encoder.lean ====
section
/-! DEFINITION. base85_encoder: `ENC.1` to `ENC.4` (42_encoder.md). -/

namespace Sys2Proof.Machine

open Sys2Proof

/-- The `count` base-85 digits of `v`, least significant first: take `v mod 85`, go on with `v div 85` (42_encoder.md
R121). -/
def digits : Nat → Nat → List Digit
  | 0, _ => []
  | count + 1, v => ⟨v % 85, Nat.mod_lt v (by decide)⟩ :: digits count (v / 85)

/-- The characters of a block of k bytes: k + 1 digits through the forward table (42_encoder.md R121). -/
def blockChars (a : Alphabet) (bs : List Byte) : List Byte := (digits (bs.length + 1) (leValue bs)).map a.char

/-- `ENC.k`: encode one block of k bytes (42_encoder.md R122). -/
def encodeBlock (bs : List Byte) (s : State) : Host.Outcome State Fault Refusal :=
  complete (Response.items (blockChars s.alphabet bs)) s

/-- `ENC.1` (42_encoder.md R122). -/
def execEnc1 (b0 : Byte) (s : State) : Host.Outcome State Fault Refusal := encodeBlock [b0] s

/-- `ENC.2` (42_encoder.md R122). -/
def execEnc2 (b0 b1 : Byte) (s : State) : Host.Outcome State Fault Refusal := encodeBlock [b0, b1] s

/-- `ENC.3` (42_encoder.md R122). -/
def execEnc3 (b0 b1 b2 : Byte) (s : State) : Host.Outcome State Fault Refusal := encodeBlock [b0, b1, b2] s

/-- `ENC.4` (42_encoder.md R122). -/
def execEnc4 (b0 b1 b2 b3 : Byte) (s : State) : Host.Outcome State Fault Refusal := encodeBlock [b0, b1, b2, b3] s

end Sys2Proof.Machine
end

