-- ==== Sys2Proof/Machine/Flags.lean ====
section
/-! DEFINITION. Statuses. The block has no flags or condition codes (10_state.md R26); what stands for them is the
status of each response: its 3-bit code, and the checks that choose it, in their order (60_exceptions.md R188). -/

namespace Sys2Proof.Machine

open Sys2Proof

/-- The 3-bit code on `rsp_st` (30_encoding.md R69). -/
def Status.code : Status → BitVec 3
  | .ok => 0
  | .illegal => 1
  | .invalidLength => 2
  | .overflow => 3
  | .badIndex => 4

/-- The bits of a response on the output ports `rsp_st`, `rsp_n`, `rsp_out` and `rsp_val` (30_encoding.md R70). -/
structure ResponsePorts where
  rspSt : BitVec 3
  rspN : BitVec 3
  rspOut : BitVec 40
  rspVal : Word
  deriving DecidableEq, Repr

/-- What the output ports carry while `rsp_valid` is set for a response (30_encoding.md R67, R69, R70). -/
def Response.ports (r : Response) : ResponsePorts := ⟨r.st.code, r.n, r.out, r.val⟩

/-- `elen(n)`, the exact encoded length (41_length.md R100). -/
def elen (n : Nat) : Nat := 5 * (n / 4) + if n % 4 = 0 then 0 else 1 + n % 4

/-- `dlen(n)`, the exact decoded length; Nat subtraction is the `max(0, _)` of the rule (41_length.md R101). -/
def dlen (n : Nat) : Nat := 4 * (n / 5) + (n % 5 - 1)

/-- The status of `LEN.ENC n`: the sign is checked first, then the exact result (60_exceptions.md R188; 41_length.md
R102, R103). -/
def lenEncStatus (n : Int) : Status :=
  if n < 0 then .invalidLength else if elen n.toNat > Config.lenMax then .overflow else .ok

/-- The status of `LEN.DEC n` (60_exceptions.md R188; 41_length.md R104). -/
def lenDecStatus (n : Int) : Status := if n < 0 then .invalidLength else .ok

/-- The status of `LUT.CHAR i` (60_exceptions.md R188; 40_alphabet_lut.md R84). -/
def lutCharStatus (i : Nat) : Status := if i ≥ 85 then .badIndex else .ok

end Sys2Proof.Machine
end

