-- ==== Sys2Proof/Machine/Length.lean ====
section
/-! DEFINITION. The length unit: `LEN.ENC`, `LEN.DEC` (41_length.md). -/

namespace Sys2Proof.Machine

open Sys2Proof

/-- A length command's response: `r[31:0]` with `OK`, or the error's status with `VAL = 0xFFFFFFFF` (41_length.md R103,
R104). -/
def lengthResponse (st : Status) (r : Nat) (s : State) : Host.Outcome State Fault Refusal :=
  match st with
  | .ok => complete (Response.value (BitVec.ofNat 32 r)) s
  | err => raise err 0xFFFFFFFF s

/-- `LEN.ENC n` (41_length.md R103). -/
def execLenEnc (n : Int) (s : State) : Host.Outcome State Fault Refusal :=
  lengthResponse (lenEncStatus n) (elen n.toNat) s

/-- `LEN.DEC n` (41_length.md R104). -/
def execLenDec (n : Int) (s : State) : Host.Outcome State Fault Refusal :=
  lengthResponse (lenDecStatus n) (dlen n.toNat) s

end Sys2Proof.Machine
end

