-- ==== Sys2Proof/Machine/Lut.lean ====
section
/-! DEFINITION. alphabet_lut: `LUT.MEM`, `LUT.CODE`, `LUT.CHAR` (40_alphabet_lut.md). -/

namespace Sys2Proof.Machine

open Sys2Proof

/-- How `LUT.CODE` reports a table entry: the digit, or 0xFFFFFFFF for `ABSENT` (40_alphabet_lut.md R83, R86). -/
def codeValue : Option Digit → Word
  | some d => BitVec.ofNat 32 d.val
  | none => 0xFFFFFFFF

/-- `LUT.MEM c` (40_alphabet_lut.md R82). -/
def execLutMem (c : Byte) (s : State) : Host.Outcome State Fault Refusal :=
  complete (Response.value (if s.alphabet.member c then 1 else 0)) s

/-- `LUT.CODE c` (40_alphabet_lut.md R83). -/
def execLutCode (c : Byte) (s : State) : Host.Outcome State Fault Refusal :=
  complete (Response.value (codeValue (s.alphabet.code c))) s

/-- `LUT.CHAR i` (40_alphabet_lut.md R84; `BAD_INDEX`, 60_exceptions.md R185). -/
def execLutChar (i : Nat) (s : State) : Host.Outcome State Fault Refusal :=
  if h : i < 85 then complete (Response.value (zext32 (s.alphabet.char ⟨i, h⟩))) s
  else raise (lutCharStatus i) 0 s

end Sys2Proof.Machine
end

