-- ==== Sys2Proof/Machine/Dispatch.lean ====
section
/-! DEFINITION. One arm per command. -/

namespace Sys2Proof.Machine

open Sys2Proof

/-- What a command does. -/
def exec (i : Instr) (s : State) : Host.Outcome State Fault Refusal :=
  match i with
  | .nop => Sys2Proof.Machine.execNop s
  | .enc1 b0 => Sys2Proof.Machine.execEnc1 b0 s
  | .enc2 b0 b1 => Sys2Proof.Machine.execEnc2 b0 b1 s
  | .enc3 b0 b1 b2 => Sys2Proof.Machine.execEnc3 b0 b1 b2 s
  | .enc4 b0 b1 b2 b3 => Sys2Proof.Machine.execEnc4 b0 b1 b2 b3 s
  | .decChar c => Sys2Proof.Machine.execDecChar c s
  | .decFinal => Sys2Proof.Machine.execDecFinal s
  | .decClear => Sys2Proof.Machine.execDecClear s
  | .decRdw => Sys2Proof.Machine.execDecRdw s
  | .decRdm => Sys2Proof.Machine.execDecRdm s
  | .lutMem c => Sys2Proof.Machine.execLutMem c s
  | .lutCode c => Sys2Proof.Machine.execLutCode c s
  | .lutChar idx => Sys2Proof.Machine.execLutChar idx s
  | .lenEnc n => Sys2Proof.Machine.execLenEnc n s
  | .lenDec n => Sys2Proof.Machine.execLenDec n s

end Sys2Proof.Machine
end

