-- ==== Sys2Proof/Machine/Port.lean ====
section
/-! DEFINITION. What one step of the ports does (30_encoding.md R70, R71; 70_reset_and_hazards.md R201, R202). -/

namespace Sys2Proof.Machine

open Sys2Proof

/-- One issued command word: its command's meaning, or `ILLEGAL` for a reserved opcode (30_encoding.md R66, R71). -/
def runCommand (cw : CommandWord) (s : State) : Host.Outcome State Fault Refusal :=
  match decode cw with
  | .command i => exec i s
  | .reserved _ => execReserved s

/-- One step of the input ports. `rst` comes first: a command presented with it is not executed and gets no response
(70_reset_and_hazards.md R202). A command is issued when `cmd_valid` is set (30_encoding.md R70). -/
def stepPorts (p : PortInput) (s : State) : Host.Outcome State Fault Refusal :=
  if p.rst then .next s.applyReset
  else if p.cmdValid then runCommand p.cmdWord s
  else .next s.idle

/-- One step: take what the host presents and act on it; where it presents nothing, wait (70_reset_and_hazards.md
R201). -/
def stepOnce (s : State) : Host.Outcome State Fault Refusal :=
  match s.takeInput with
  | none => .next s.idle
  | some (p, s') => stepPorts p s'

end Sys2Proof.Machine
end

