-- ==== Sys2Proof/Machine/Step.lean ====
section
/-! DEFINITION. The step function, and how a command comes to be the next one (log entry 6). -/

namespace Sys2Proof.Machine

open Sys2Proof

/-- One step of the block (30_encoding.md R71). -/
def step (s : State) : Host.Outcome State Fault Refusal := stepOnce s

/-- `s` with the command word of the low `nbits` bits of `w` presented next on the command port: the block fetches
nothing, so the host's command port is where its next command comes from (10_state.md R25; 30_encoding.md R70). -/
def State.withFetchWord (s : State) (nbits w : Nat) : State :=
  s.presentCommand (BitVec.ofNat 40 (w % 2 ^ nbits))

end Sys2Proof.Machine
end

