-- ==== Sys2Proof/Machine/Asm.lean ====
section
/-! DEFINITION. The pseudo-instructions and the assembler (30_encoding.md R72, R73): a line of characters is read into a
mnemonic and operands, and those assemble to commands. -/

namespace Sys2Proof.Machine

open Sys2Proof

/-- `ENC.BUF`: one `ENC.4` for every four bytes, then one `ENC.r` for the r bytes left over (30_encoding.md R73;
42_encoder.md R124). -/
def encBuf : List Byte → List Instr
  | b0 :: b1 :: b2 :: b3 :: rest => .enc4 b0 b1 b2 b3 :: encBuf rest
  | [b0, b1, b2] => [.enc3 b0 b1 b2]
  | [b0, b1] => [.enc2 b0 b1]
  | [b0] => [.enc1 b0]
  | [] => []

/-- `DEC.BUF`: one `DEC.CHAR` per character, members or not (30_encoding.md R73). -/
def decBuf (cs : List Byte) : List Instr := cs.map Instr.decChar

/-- `DEC.STR`: `DEC.BUF`, then `DEC.FINAL` (30_encoding.md R73; 43_decoder.md R150). -/
def decStr (cs : List Byte) : List Instr := decBuf cs ++ [.decFinal]

/-- The command words of a list of commands. -/
def assembleWords (is : List Instr) : List CommandWord := is.map encode

/-- What an assembler line can begin with: the commands of 30_encoding.md R62 and the pseudo-instructions of R73. -/
inductive Mnemonic where
  | nop | enc1 | enc2 | enc3 | enc4
  | decChar | decFinal | decClear | decRdw | decRdm
  | lutMem | lutCode | lutChar | lenEnc | lenDec
  | encBuf | decBuf | decStr
  deriving DecidableEq, Repr

/-- A mnemonic's spelling (30_encoding.md R62, R73). -/
def Mnemonic.spelling : Mnemonic → List Char
  | .nop => ['N', 'O', 'P']
  | .enc1 => ['E', 'N', 'C', '.', '1']
  | .enc2 => ['E', 'N', 'C', '.', '2']
  | .enc3 => ['E', 'N', 'C', '.', '3']
  | .enc4 => ['E', 'N', 'C', '.', '4']
  | .decChar => ['D', 'E', 'C', '.', 'C', 'H', 'A', 'R']
  | .decFinal => ['D', 'E', 'C', '.', 'F', 'I', 'N', 'A', 'L']
  | .decClear => ['D', 'E', 'C', '.', 'C', 'L', 'E', 'A', 'R']
  | .decRdw => ['D', 'E', 'C', '.', 'R', 'D', 'W']
  | .decRdm => ['D', 'E', 'C', '.', 'R', 'D', 'M']
  | .lutMem => ['L', 'U', 'T', '.', 'M', 'E', 'M']
  | .lutCode => ['L', 'U', 'T', '.', 'C', 'O', 'D', 'E']
  | .lutChar => ['L', 'U', 'T', '.', 'C', 'H', 'A', 'R']
  | .lenEnc => ['L', 'E', 'N', '.', 'E', 'N', 'C']
  | .lenDec => ['L', 'E', 'N', '.', 'D', 'E', 'C']
  | .encBuf => ['E', 'N', 'C', '.', 'B', 'U', 'F']
  | .decBuf => ['D', 'E', 'C', '.', 'B', 'U', 'F']
  | .decStr => ['D', 'E', 'C', '.', 'S', 'T', 'R']

/-- Every mnemonic. -/
def mnemonics : List Mnemonic :=
  [.nop, .enc1, .enc2, .enc3, .enc4, .decChar, .decFinal, .decClear, .decRdw, .decRdm, .lutMem, .lutCode, .lutChar,
    .lenEnc, .lenDec, .encBuf, .decBuf, .decStr]

/-- An operand as written (30_encoding.md R72). -/
inductive AsmOperand where
  /-- A hex literal of `width` digits and value `n`: `0xHH`, a byte, has two, and an index may have any number. -/
  | hex (width n : Nat)
  /-- `A[i]`, the byte `ALPHABET[i]`. -/
  | alphabetAt (i : Digit)
  /-- The literal `'0'`, byte 0x30. -/
  | quotedZero
  /-- A decimal number: an index or a length. -/
  | decimal (n : Nat)
  /-- A decimal number with `-` before it: a signed length. -/
  | negative (n : Nat)
  deriving DecidableEq, Repr

/-- A line: mnemonic, then operands separated by commas (30_encoding.md R72). -/
structure AsmLine where
  mnemonic : Mnemonic
  operands : List AsmOperand
  deriving DecidableEq, Repr

/-- The byte a byte operand stands for: `0xHH`, `A[i]` or `'0'` (30_encoding.md R72). -/
def operandByte (a : Alphabet) : AsmOperand → Option Byte
  | .hex width n => if width = 2 then some (BitVec.ofNat 8 n) else none
  | .alphabetAt i => some (a.char i)
  | .quotedZero => some 0x30
  | .decimal _ => none
  | .negative _ => none

/-- The number an unsigned index operand stands for, in hex or in decimal (30_encoding.md R72; 95_test_vectors.md section
3.1). -/
def operandIndex : AsmOperand → Option Nat
  | .hex _ n => some n
  | .decimal n => some n
  | .alphabetAt _ => none
  | .quotedZero => none
  | .negative _ => none

/-- The number a signed decimal length operand stands for (30_encoding.md R72). -/
def operandLength : AsmOperand → Option Int
  | .decimal n => some n
  | .negative n => some (-(n : Int))
  | .hex _ _ => none
  | .alphabetAt _ => none
  | .quotedZero => none

/-- The bytes of a list of byte operands, none if one of them is no byte operand. -/
def operandBytes (a : Alphabet) : List AsmOperand → Option (List Byte)
  | [] => some []
  | o :: os =>
    match operandByte a o, operandBytes a os with
    | some b, some bs => some (b :: bs)
    | _, _ => none

/-- A command that takes no operand (30_encoding.md R72). -/
def withoutOperand (i : Instr) : List AsmOperand → Option (List Instr)
  | [] => some [i]
  | _ => none

/-- A command that takes one operand, read by `value` and checked to fit its field (30_encoding.md R72). -/
def withOperand {α : Type} (value : AsmOperand → Option α) (f : α → Instr) : List AsmOperand → Option (List Instr)
  | [o] => (value o).bind fun v => if (f v).wf then some [f v] else none
  | _ => none

/-- `ENC.k` with exactly k byte operands (30_encoding.md R72): a block is the one command `ENC.BUF` makes of it. -/
def withBlock (a : Alphabet) (k : Nat) (os : List AsmOperand) : Option (List Instr) :=
  (operandBytes a os).bind fun bs => if bs.length = k then some (encBuf bs) else none

/-- The commands a line assembles to, none for a line of the wrong form (30_encoding.md R72, R73). -/
def assemble (a : Alphabet) (line : AsmLine) : Option (List Instr) :=
  match line.mnemonic with
  | .nop => withoutOperand .nop line.operands
  | .enc1 => withBlock a 1 line.operands
  | .enc2 => withBlock a 2 line.operands
  | .enc3 => withBlock a 3 line.operands
  | .enc4 => withBlock a 4 line.operands
  | .decChar => withOperand (operandByte a) .decChar line.operands
  | .decFinal => withoutOperand .decFinal line.operands
  | .decClear => withoutOperand .decClear line.operands
  | .decRdw => withoutOperand .decRdw line.operands
  | .decRdm => withoutOperand .decRdm line.operands
  | .lutMem => withOperand (operandByte a) .lutMem line.operands
  | .lutCode => withOperand (operandByte a) .lutCode line.operands
  | .lutChar => withOperand operandIndex .lutChar line.operands
  | .lenEnc => withOperand operandLength .lenEnc line.operands
  | .lenDec => withOperand operandLength .lenDec line.operands
  | .encBuf => (operandBytes a line.operands).map encBuf
  | .decBuf => (operandBytes a line.operands).map decBuf
  | .decStr => (operandBytes a line.operands).map decStr

/-- The value of a digit of a number written in base 10 or 16, none for another character. -/
def digitOf (base : Nat) (c : Char) : Option Nat :=
  let n := c.toNat
  let v := if 48 ≤ n ∧ n ≤ 57 then n - 48 else if 65 ≤ n ∧ n ≤ 70 then n - 55
    else if 97 ≤ n ∧ n ≤ 102 then n - 87 else 16
  if v < base then some v else none

/-- The number a digit sequence writes after the digits already read, most significant first. -/
def numberFrom (base acc : Nat) : List Char → Option Nat
  | [] => some acc
  | c :: cs => (digitOf base c).bind fun d => numberFrom base (base * acc + d) cs

/-- The number a non-empty digit sequence writes. -/
def numberOf (base : Nat) : List Char → Option Nat
  | [] => none
  | c :: cs => numberFrom base 0 (c :: cs)

/-- `A[i]` with i in 0..84. -/
def alphabetOperand (cs : List Char) : Option AsmOperand :=
  if cs.getLast? = some ']' then
    (numberOf 10 cs.dropLast).bind fun i => if h : i < 85 then some (.alphabetAt ⟨i, h⟩) else none
  else none

/-- One operand as written: a hex literal, `A[i]`, `'0'`, or a decimal number (30_encoding.md R72). -/
def readOperand : List Char → Option AsmOperand
  | '0' :: 'x' :: ds => (numberOf 16 ds).map (.hex ds.length)
  | ['\'', '0', '\''] => some .quotedZero
  | 'A' :: '[' :: cs => alphabetOperand cs
  | '-' :: ds => (numberOf 10 ds).map .negative
  | ds => (numberOf 10 ds).map .decimal

/-- A character sequence without the spaces around it. -/
def trimSpaces (cs : List Char) : List Char :=
  ((cs.dropWhile (· == ' ')).reverse.dropWhile (· == ' ')).reverse

/-- The pieces between commas. -/
def splitCommas : List Char → List (List Char)
  | [] => [[]]
  | c :: cs =>
    if c = ',' then [] :: splitCommas cs
    else match splitCommas cs with
      | [] => [[c]]
      | w :: ws => (c :: w) :: ws

/-- The operands of a line, none if one of them is not of a form of R72. -/
def readOperands : List (List Char) → Option (List AsmOperand)
  | [] => some []
  | w :: ws =>
    match readOperand (trimSpaces w), readOperands ws with
    | some o, some os => some (o :: os)
    | _, _ => none

/-- One line of assembler: a mnemonic, a space, operands separated by commas (30_encoding.md R72). -/
def readLine (cs : List Char) : Option AsmLine :=
  let line := trimSpaces cs
  let rest := trimSpaces (line.dropWhile (· != ' '))
  match mnemonics.find? (·.spelling == line.takeWhile (· != ' ')),
      if rest.isEmpty then some [] else readOperands (splitCommas rest) with
  | some mn, some os => some ⟨mn, os⟩
  | _, _ => none

/-- The command words of one line of assembler (30_encoding.md R72, R73). -/
def assembleText (a : Alphabet) (cs : List Char) : Option (List CommandWord) :=
  ((readLine cs).bind (assemble a)).map assembleWords

/-! ## Writing a line -/

/-- The character of a digit below 16, in capitals or not. -/
def digitChar (upper : Bool) (d : Nat) : Char := if upper then (Nat.digitChar d).toUpper else Nat.digitChar d

/-- The decimal digits of `n`, most significant first. -/
def decimalDigits (n : Nat) : List Nat := if n = 0 then [0] else (Nat.digits 10 n).reverse

/-- `n` in decimal. -/
def decimalText (n : Nat) : List Char := (decimalDigits n).map (digitChar true)

/-- The low `width` hex digits of `n`, most significant first. -/
def hexText (upper : Bool) : Nat → Nat → List Char
  | 0, _ => []
  | width + 1, n => digitChar upper (n / 16 ^ width % 16) :: hexText upper width n

/-- An operand as R72 writes it. -/
def AsmOperand.text (upper : Bool) : AsmOperand → List Char
  | .hex width n => '0' :: 'x' :: hexText upper width n
  | .alphabetAt i => 'A' :: '[' :: (decimalText i.val ++ [']'])
  | .quotedZero => ['\'', '0', '\'']
  | .decimal n => decimalText n
  | .negative n => '-' :: decimalText n

/-- An operand that can be written: a hex literal has digits, and enough of them. -/
def AsmOperand.Writable : AsmOperand → Prop
  | .hex width n => 0 < width ∧ n < 16 ^ width
  | .alphabetAt _ => True
  | .quotedZero => True
  | .decimal _ => True
  | .negative _ => True

/-- Operands separated by commas. -/
def operandsText (upper : Bool) : List AsmOperand → List Char
  | [] => []
  | [o] => o.text upper
  | o :: os => o.text upper ++ ',' :: ' ' :: operandsText upper os

/-- A line as R72 writes it: mnemonic, then operands separated by commas. -/
def AsmLine.text (upper : Bool) (line : AsmLine) : List Char :=
  if line.operands.isEmpty then line.mnemonic.spelling
  else line.mnemonic.spelling ++ ' ' :: operandsText upper line.operands

end Sys2Proof.Machine
end

