-- ==== Sys2Proof/Machine/Run.lean ====
section
/-! DEFINITION. A run: a finite list of command words applied in order, and what it is observed by
(70_reset_and_hazards.md R211; 10_state.md R25). -/

namespace Sys2Proof.Machine

open Sys2Proof

/-- The host presents these command words in the coming steps, one a step, and nothing after them. -/
def State.presenting (s : State) (cws : List CommandWord) : State :=
  { s with inputs := cws.map fun cw => { rst := false, cmdValid := true, cmdWord := cw } }

/-- `k` steps, stopping at a fault or a refusal. -/
def runSteps : Nat → State → Host.Outcome State Fault Refusal
  | 0, s => .next s
  | k + 1, s =>
    match step s with
    | .next t => runSteps k t
    | .fault f => .fault f
    | .refused r => .refused r

/-- A run of a list of command words: one step for each (70_reset_and_hazards.md R211). -/
def run (cws : List CommandWord) (s : State) : Host.Outcome State Fault Refusal :=
  runSteps cws.length (s.presenting cws)

/-- What a run is observed by (70_reset_and_hazards.md R211). -/
structure Observation where
  responses : List Response
  word : Word
  m : BitVec 3
  deriving DecidableEq, Repr

/-- The observation a state holds: the responses given so far and `(WORD, M)`. -/
def State.observation (s : State) : Observation := ⟨s.rsps, s.word, s.m⟩

/-- The responses given between `s` and `t`. -/
def newResponses (s t : State) : List Response := t.rsps.drop s.rsps.length

/-- The output items the host appends between `s` and `t`, in order (20_memory.md R44; 42_encoder.md R124). -/
def newItems (s t : State) : List Byte := (newResponses s t).flatMap Response.itemList

end Sys2Proof.Machine
end

