-- ==== Sys2Proof/Safety.lean ====
section
/-! DEFINITION. The terms claims are stated in: the invariant of every reachable state, reachability, the host's duties
as conditions, and canonical input. -/

namespace Sys2Proof.Machine

open Sys2Proof

/-- 10_state.md R24, the decoder's part: `M` is 0..4 and `WORD < 85^M`. -/
abbrev State.DecoderInv (s : State) : Prop := s.m.toNat ≤ 4 ∧ s.word.toNat < 85 ^ s.m.toNat

/-- The invariant of every reachable state: 10_state.md R24, and a forward table that meets 00_scope.md R9. -/
abbrev State.Inv (s : State) : Prop := s.DecoderInv ∧ s.alphabet.Valid

/-- A state some run reaches from the state after reset, whatever the host presents on the ports between steps
(70_reset_and_hazards.md R203). -/
inductive Reachable : State → Prop where
  | reset : Reachable State.reset
  | present (s : State) (ps : List PortInput) (h : Reachable s) : Reachable { s with inputs := ps }
  | step (s t : State) (h : Reachable s) (hs : Machine.step s = .next t) : Reachable t

/-- A decode stream may begin: `M = 0`, and so `WORD = 0` (70_reset_and_hazards.md R206; 10_state.md R24). -/
abbrev State.StreamMayBegin (s : State) : Prop := s.m = 0 ∧ s.word = 0

/-- The run gave no `ILLEGAL` response: the premise 93_implementation_defined.md I6 asks of a claim. -/
abbrev State.NoIllegal (s : State) : Prop := ∀ r ∈ s.rsps, r.st ≠ .illegal

/-- The number a digit sequence spells, least significant first (20_memory.md R42). -/
def digitValue : List Digit → Nat
  | [] => 0
  | d :: ds => d.val + 85 * digitValue ds

/-- A group the encoder can have produced: m digits, 2 to 5 of them, spelling less than 256^(m-1) (43_decoder.md R149). -/
abbrev CanonicalGroup (ds : List Digit) : Prop :=
  2 ≤ ds.length ∧ ds.length ≤ 5 ∧ digitValue ds < 256 ^ (ds.length - 1)

/-- The digits of the members of a character sequence, non-members left out (43_decoder.md R142). -/
def memberDigits (a : Alphabet) (cs : List Byte) : List Digit := cs.filterMap a.code

/-- A reserved `OPC` value (30_encoding.md R66). -/
abbrev ReservedOpc (opc : Nat) : Prop :=
  (0x01 ≤ opc ∧ opc ≤ 0x0F) ∨ (0x14 ≤ opc ∧ opc ≤ 0x1F) ∨ (0x25 ≤ opc ∧ opc ≤ 0x2F) ∨
    (0x33 ≤ opc ∧ opc ≤ 0x3F) ∨ (0x42 ≤ opc ∧ opc ≤ 0xFF)

/-- The commands whose response carries output items (30_encoding.md R67). -/
def returnsItems : Instr → Bool
  | .enc1 _ | .enc2 _ _ | .enc3 _ _ _ | .enc4 _ _ _ _ => true
  | .decChar _ | .decFinal => true
  | .nop | .decClear | .decRdw | .decRdm => false
  | .lutMem _ | .lutCode _ | .lutChar _ | .lenEnc _ | .lenDec _ => false

/-- The commands whose response carries the scalar `VAL` (30_encoding.md R67). -/
def returnsValue : Instr → Bool
  | .enc1 _ | .enc2 _ _ | .enc3 _ _ _ | .enc4 _ _ _ _ => false
  | .decChar _ | .decFinal => false
  | .nop | .decClear => false
  | .decRdw | .decRdm => true
  | .lutMem _ | .lutCode _ | .lutChar _ | .lenEnc _ | .lenDec _ => true

/-- The state after a command that leaves `WORD = w`, `M = m` and answers `r`; everything else is as before it. -/
def State.answered (s : State) (w : Word) (m : BitVec 3) (r : Response) : State :=
  { s with word := w, m := m, rsp := some r, rsps := s.rsps ++ [r] }

/-- The state in which the host presents this command word next, and after it `rest`. -/
def State.issuing (s : State) (cw : CommandWord) (rest : List PortInput) : State :=
  { s with inputs := { rst := false, cmdValid := true, cmdWord := cw } :: rest }

/-- The state with what the host presents replaced. -/
def State.withInputs (s : State) (ps : List PortInput) : State := { s with inputs := ps }

end Sys2Proof.Machine
end

