-- ==== Sys2Proof/Certificates/Slice0/Obligations.lean ====
section
/-! DEFINITION. The statements for the provers. `State.answered w m r` (Safety.lean) is the whole next state of a command:
`WORD`, `M` and the response as given, everything else as before; so a statement that ends in it states the frame. -/

open Sys2Proof Sys2Proof.Machine

/-! ## Reset, waiting, and how a step runs a command -/

/-- R32: after reset `WORD = 0` and `M = 0`; the forward and the code table are not affected by reset. -/
def Obligations.ResetClearsDecoderKeepsTables : Prop :=
  State.reset.word = 0 ∧ State.reset.m = 0 ∧ State.reset.alphabet = Config.alphabet ∧ Config.alphabet.Valid ∧
    ∀ s : State, s.applyReset.word = 0 ∧ s.applyReset.m = 0 ∧ s.applyReset.alphabet = s.alphabet ∧
      (∀ d, s.applyReset.alphabet.char d = s.alphabet.char d) ∧
      ∀ c, s.applyReset.alphabet.code c = s.alphabet.code c

/-- R202: a command presented in the step of an asserted `rst` is not executed and gets no response, and a partial group
is lost. Nothing else changes. -/
def Obligations.ResetStepDropsCommand : Prop :=
  ∀ (s : State) (valid : Bool) (cw : CommandWord) (rest : List PortInput),
    step (s.withInputs ({ rst := true, cmdValid := valid, cmdWord := cw } :: rest)) =
      .next { s with word := 0, m := 0, inputs := rest, rsp := none }

/-- The model's reading of R70 and R201 (log entries 2 and 3): a step in which no command is issued, because the host
presents nothing or leaves `cmd_valid` clear, gives no response and changes nothing else; so after reset the block
waits. -/
def Obligations.NoCommandNoResponse : Prop :=
  (∀ s : State, s.inputs = [] → step s = .next { s with rsp := none }) ∧
  (∀ (s : State) (cw : CommandWord) (rest : List PortInput),
    step (s.withInputs ({ rst := false, cmdValid := false, cmdWord := cw } :: rest)) =
      .next { s with inputs := rest, rsp := none }) ∧
  step State.reset = .next State.reset

/-- A step runs the decoded command: with a command word presented next, the step is `exec` of what the word decodes to,
on the state whose inputs have moved on by one. -/
def Obligations.StepRunsDecodedCommand : Prop :=
  ∀ (s : State) (cw : CommandWord) (rest : List PortInput) (i : Instr),
    decode cw = .command i → step (s.issuing cw rest) = exec i (s.withInputs rest)

/-- R71: a step on a command word is total, and gives the next state and exactly one response, last in the order of
responses. No command stops. The response and the next `(WORD, M)` are determined by the command word and `(WORD, M)`,
for a fixed `ALPHABET`. -/
def Obligations.EveryCommandAnswersOnce : Prop :=
  (∀ (s : State) (cw : CommandWord) (rest : List PortInput), ∃ t r,
    step (s.issuing cw rest) = .next t ∧ t.rsp = some r ∧ t.rsps = s.rsps ++ [r] ∧ t.inputs = rest) ∧
  (∀ s : State, ∃ t, step s = .next t) ∧
  (∀ (i : Instr) (s : State), ∃ w m r, exec i s = .next (s.answered w m r)) ∧
  ∀ (s s' : State) (cw : CommandWord), s.alphabet = s'.alphabet → s.word = s'.word → s.m = s'.m →
    ∃ w m r, runCommand cw s = .next (s.answered w m r) ∧ runCommand cw s' = .next (s'.answered w m r)

/-! ## Encoding -/

/-- R66, R171 and R184: the 241 opcodes outside the map are reserved; executing one completes with `ILLEGAL` and no
state change; every other word is a command of the opcode it carries. -/
def Obligations.ReservedOpcodesAreIllegal : Prop :=
  (∀ cw : CommandWord, ReservedOpc cw.opc.toNat → decode cw = .reserved cw.opc ∧
    ∀ (s : State) (rest : List PortInput), step (s.issuing cw rest) =
      .next ((s.withInputs rest).answered s.word s.m ⟨.illegal, 0, 0, 0⟩)) ∧
  (∀ cw : CommandWord, ¬ ReservedOpc cw.opc.toNat → ∃ i, decode cw = .command i ∧ i.opc = cw.opc) ∧
  ((List.range 256).filter fun o => decide (ReservedOpc o)).length = 241

/-- R63: `ENC.k` is `OPC & 0xFC = 0x10`, with `k = OPC[1:0] + 1`. -/
def Obligations.EncoderOpcodeCarriesSize : Prop :=
  ∀ cw : CommandWord,
    (cw.opc &&& 0xFC = 0x10 ↔ ∃ i, decode cw = .command i ∧ i.codecUnit = .encoder) ∧
    (cw.opc &&& 0xFC = 0x10 →
      match (cw.opc.extractLsb' 0 2).toNat + 1 with
      | 1 => ∃ b0, decode cw = .command (.enc1 b0)
      | 2 => ∃ b0 b1, decode cw = .command (.enc2 b0 b1)
      | 3 => ∃ b0 b1 b2, decode cw = .command (.enc3 b0 b1 b2)
      | _ => ∃ b0 b1 b2 b3, decode cw = .command (.enc4 b0 b1 b2 b3))

/-- R65: two words that agree in the opcode and in the bits R64 says the command reads are the same command. -/
def Obligations.IgnoredBitsChangeNothing : Prop :=
  ∀ cw cw' : CommandWord, cw.opc = cw'.opc →
    cw.data &&& readMask cw.opc = cw'.data &&& readMask cw.opc →
    decode cw = decode cw' ∧ ∀ s : State, runCommand cw s = runCommand cw' s

/-- Decoding what a well-formed command encodes to gives the command back, for every command and every operand. -/
def Obligations.DecodeOfEncode : Prop := ∀ i : Instr, i.WellFormed → decode (encode i) = .command i

/-- The other direction: a decoded command is well formed, belongs to the unit `OPC[7:4]` names, and encodes to the
word it came from with the ignored bits cleared. -/
def Obligations.EncodeOfDecode : Prop :=
  ∀ (cw : CommandWord) (i : Instr), decode cw = .command i →
    i.WellFormed ∧ cw.opc.extractLsb' 4 4 = i.codecUnit.code ∧
    encode i = commandWord (cw.data &&& readMask cw.opc) cw.opc

/-- Words the spec writes out in full (its examples) decode to the commands they stand for. -/
def Obligations.SpecExampleWordsDecode : Prop :=
  decode 0xFFFFFFFF00#40 = .command .nop ∧
  decode 0x206E614D13#40 = .command (.enc4 0x4D 0x61 0x6E 0x20) ∧
  decode 0x0000003020#40 = .command (.decChar 0x30) ∧
  decode 0x0000013030#40 = .command (.lutMem 0x30) ∧
  decode 0x0000005532#40 = .command (.lutChar 85) ∧
  decode 0xFFFFFFFF40#40 = .command (.lenEnc (-1)) ∧
  decode 0x0000000014#40 = .reserved 0x14

/-- 30_encoding.md section 6: where a line of text assembles to words, they are the encodings of the very commands the
line's mnemonic and operands assemble to, these are well formed, and the words decode to them. -/
def Obligations.AssembledWordsDecode : Prop :=
  ∀ (a : Alphabet) (text : List Char) (cws : List CommandWord), assembleText a text = some cws →
    ∃ (line : AsmLine) (is : List Instr), readLine text = some line ∧ assemble a line = some is ∧
      (∀ i ∈ is, i.WellFormed) ∧ cws = is.map encode ∧ cws.map decode = is.map Decoded.command

/-- 30_encoding.md section 6: a line written as R72 says, mnemonic first and then operands separated by commas, with hex
digits in capitals or not, is read as that mnemonic and those operands; so it assembles to what they assemble to. The
spaces, the digits of hex literals other than `0xHH` and the decimal index are the model's reading (log entry 13). -/
def Obligations.WrittenLinesReadBack : Prop :=
  ∀ (upper : Bool) (line : AsmLine), (∀ o ∈ line.operands, o.Writable) →
    readLine (line.text upper) = some line ∧
    ∀ a : Alphabet, assembleText a (line.text upper) = (assemble a line).map (List.map encode)

/-- 30_encoding.md section 6: which commands each mnemonic of R72 and its operands assemble to, and with which `DATA`:
exactly the operands the rule gives it, each byte in its place, an unsigned index, a signed length. A number that does
not fit its field assembles to nothing (log entry 13). -/
def Obligations.OperandsAssembleToCommands : Prop :=
  (∀ a : Alphabet,
    (∀ width n, operandByte a (.hex width n) = if width = 2 then some (BitVec.ofNat 8 n) else none) ∧
    (∀ i, operandByte a (.alphabetAt i) = some (a.char i)) ∧ operandByte a .quotedZero = some 0x30 ∧
    (∀ n, operandByte a (.decimal n) = none ∧ operandByte a (.negative n) = none)) ∧
  (∀ (a : Alphabet) (os : List AsmOperand) (is : List Instr),
    (assemble a ⟨.nop, os⟩ = some is ↔ os = [] ∧ is = [.nop]) ∧
    (assemble a ⟨.decFinal, os⟩ = some is ↔ os = [] ∧ is = [.decFinal]) ∧
    (assemble a ⟨.decClear, os⟩ = some is ↔ os = [] ∧ is = [.decClear]) ∧
    (assemble a ⟨.decRdw, os⟩ = some is ↔ os = [] ∧ is = [.decRdw]) ∧
    (assemble a ⟨.decRdm, os⟩ = some is ↔ os = [] ∧ is = [.decRdm]) ∧
    (assemble a ⟨.enc1, os⟩ = some is ↔ ∃ b0, os.map (operandByte a) = [some b0] ∧ is = [.enc1 b0]) ∧
    (assemble a ⟨.enc2, os⟩ = some is ↔
      ∃ b0 b1, os.map (operandByte a) = [some b0, some b1] ∧ is = [.enc2 b0 b1]) ∧
    (assemble a ⟨.enc3, os⟩ = some is ↔
      ∃ b0 b1 b2, os.map (operandByte a) = [some b0, some b1, some b2] ∧ is = [.enc3 b0 b1 b2]) ∧
    (assemble a ⟨.enc4, os⟩ = some is ↔
      ∃ b0 b1 b2 b3, os.map (operandByte a) = [some b0, some b1, some b2, some b3] ∧ is = [.enc4 b0 b1 b2 b3]) ∧
    (assemble a ⟨.decChar, os⟩ = some is ↔ ∃ c, os.map (operandByte a) = [some c] ∧ is = [.decChar c]) ∧
    (assemble a ⟨.lutMem, os⟩ = some is ↔ ∃ c, os.map (operandByte a) = [some c] ∧ is = [.lutMem c]) ∧
    (assemble a ⟨.lutCode, os⟩ = some is ↔ ∃ c, os.map (operandByte a) = [some c] ∧ is = [.lutCode c]) ∧
    (assemble a ⟨.lutChar, os⟩ = some is ↔
      ∃ i, i < 2 ^ 32 ∧ (os = [.decimal i] ∨ ∃ width, os = [.hex width i]) ∧ is = [.lutChar i]) ∧
    (assemble a ⟨.lenEnc, os⟩ = some is ↔ ∃ n : Nat,
      (n < 2 ^ 31 ∧ os = [.decimal n] ∧ is = [.lenEnc n]) ∨
      (n ≤ 2 ^ 31 ∧ os = [.negative n] ∧ is = [.lenEnc (-n)])) ∧
    (assemble a ⟨.lenDec, os⟩ = some is ↔ ∃ n : Nat,
      (n < 2 ^ 31 ∧ os = [.decimal n] ∧ is = [.lenDec n]) ∨
      (n ≤ 2 ^ 31 ∧ os = [.negative n] ∧ is = [.lenDec (-n)]))) ∧
  (∀ i : Instr, (encode i).data = i.data ∧ (encode i).opc = i.opc) ∧
  (∀ i ∈ [Instr.nop, .decFinal, .decClear, .decRdw, .decRdm], i.data = 0) ∧
  (∀ b0 b1 b2 b3 : Byte, (Instr.enc1 b0).data.toNat = b0.toNat ∧
    (Instr.enc2 b0 b1).data.toNat = b0.toNat + 256 * b1.toNat ∧
    (Instr.enc3 b0 b1 b2).data.toNat = b0.toNat + 256 * b1.toNat + 65536 * b2.toNat ∧
    (Instr.enc4 b0 b1 b2 b3).data.toNat =
      b0.toNat + 256 * b1.toNat + 65536 * b2.toNat + 16777216 * b3.toNat) ∧
  (∀ c : Byte, (Instr.decChar c).data.toNat = c.toNat ∧ (Instr.lutMem c).data.toNat = c.toNat ∧
    (Instr.lutCode c).data.toNat = c.toNat) ∧
  (∀ i < 2 ^ 32, (Instr.lutChar i).data.toNat = i) ∧
  ∀ n : Int, ((Instr.lenEnc n).data.toNat : Int) = n % 2 ^ 32 ∧ ((Instr.lenDec n).data.toNat : Int) = n % 2 ^ 32

/-- R73: what the pseudo-instructions expand to: `ENC.BUF` to one `ENC.4` for each four bytes and one `ENC.r` for the
last r, `DEC.BUF` to one `DEC.CHAR` per character, `DEC.STR` to that and `DEC.FINAL`; and each expands exactly the
bytes its operands stand for, any number of them. -/
def Obligations.PseudoInstructionsExpand : Prop :=
  (∀ bs : List Byte, encBuf bs =
    ((List.range (bs.length / 4)).map fun q =>
      Instr.enc4 (bs.getD (4 * q) 0) (bs.getD (4 * q + 1) 0) (bs.getD (4 * q + 2) 0) (bs.getD (4 * q + 3) 0)) ++
    match bs.drop (4 * (bs.length / 4)) with
    | [b0] => [.enc1 b0]
    | [b0, b1] => [.enc2 b0 b1]
    | [b0, b1, b2] => [.enc3 b0 b1 b2]
    | _ => []) ∧
  ∀ (a : Alphabet) (os : List AsmOperand) (is : List Instr),
    (assemble a ⟨.encBuf, os⟩ = some is ↔ ∃ bs : List Byte, os.map (operandByte a) = bs.map some ∧ is = encBuf bs) ∧
    (assemble a ⟨.decBuf, os⟩ = some is ↔
      ∃ cs : List Byte, os.map (operandByte a) = cs.map some ∧ is = cs.map Instr.decChar) ∧
    (assemble a ⟨.decStr, os⟩ = some is ↔
      ∃ cs : List Byte, os.map (operandByte a) = cs.map some ∧ is = cs.map Instr.decChar ++ [.decFinal])

/-! ## base85_encoder -/

/-- What `ENC.k` of block value `v` answers: `OK`, `N = k + 1`, `VAL = 0`, item j the character of the digit of weight
85^j, the items above j = k 0; `WORD` and `M` unchanged. -/
abbrev Sys2Proof.Machine.EncAnswer (s : State) (i : Instr) (k v : Nat) : Prop :=
  ∃ r, exec i s = .next (s.answered s.word s.m r) ∧ r.st = .ok ∧ r.n = BitVec.ofNat 3 (k + 1) ∧ r.val = 0 ∧
    ∀ j, r.item j = if j ≤ k then s.alphabet.char ⟨v / 85 ^ j % 85, Nat.mod_lt _ (by decide)⟩ else 0

/-- R122 and R120: each `ENC.k` answers the k + 1 base-85 digits of its little-endian block value, which is
`DATA[8k-1:0]`, through the forward table. -/
def Obligations.EncodeAnswersDigits : Prop :=
  (∀ d : Word, decode (commandWord d 0x10) = .command (.enc1 (dataByte d 0)) ∧
    decode (commandWord d 0x11) = .command (.enc2 (dataByte d 0) (dataByte d 1)) ∧
    decode (commandWord d 0x12) = .command (.enc3 (dataByte d 0) (dataByte d 1) (dataByte d 2)) ∧
    decode (commandWord d 0x13) =
      .command (.enc4 (dataByte d 0) (dataByte d 1) (dataByte d 2) (dataByte d 3)) ∧
    (dataByte d 0).toNat = d.toNat % 2 ^ 8 ∧
    (dataByte d 0).toNat + 256 * (dataByte d 1).toNat = d.toNat % 2 ^ 16 ∧
    (dataByte d 0).toNat + 256 * (dataByte d 1).toNat + 65536 * (dataByte d 2).toNat = d.toNat % 2 ^ 24 ∧
    (dataByte d 0).toNat + 256 * (dataByte d 1).toNat + 65536 * (dataByte d 2).toNat +
      16777216 * (dataByte d 3).toNat = d.toNat) ∧
  ∀ (s : State) (b0 b1 b2 b3 : Byte),
    EncAnswer s (.enc1 b0) 1 b0.toNat ∧
    EncAnswer s (.enc2 b0 b1) 2 (b0.toNat + 256 * b1.toNat) ∧
    EncAnswer s (.enc3 b0 b1 b2) 3 (b0.toNat + 256 * b1.toNat + 65536 * b2.toNat) ∧
    EncAnswer s (.enc4 b0 b1 b2 b3) 4
      (b0.toNat + 256 * b1.toNat + 65536 * b2.toNat + 16777216 * b3.toNat)

/-- R121: the characters of a block of k bytes (k in 1..4, so `encBuf` is one `ENC.k`) are those of exactly k + 1 digits
that spell the block value, with nothing left over, and no other k + 1 digits spell it; and every one is a member. -/
def Obligations.EncodedDigitsSpellBlock : Prop :=
  ∀ (s : State) (bs : List Byte) (i : Instr), encBuf bs = [i] → bs.length ≤ 4 →
    ∃ (r : Response) (ds : List Digit), exec i s = .next (s.answered s.word s.m r) ∧
      r.itemList = ds.map s.alphabet.char ∧ ds.length = bs.length + 1 ∧ digitValue ds = leValue bs ∧
      leValue bs / 85 ^ (bs.length + 1) = 0 ∧
      (∀ ds' : List Digit, ds'.length = bs.length + 1 → digitValue ds' = leValue bs → ds' = ds) ∧
      ∀ c ∈ r.itemList, s.alphabet.member c = true

/-- 42_encoder.md section 3: encoding a buffer of L bytes takes one command per block and yields `elen(L)` characters,
leaving `WORD` and `M` unchanged. -/
def Obligations.EncodedBufferHasEncodedLength : Prop :=
  ∀ (s : State) (bs : List Byte), ∃ t, run (assembleWords (encBuf bs)) s = .next t ∧
    (encBuf bs).length = bs.length / 4 + (if bs.length % 4 = 0 then 0 else 1) ∧
    (newItems s t).length = elen bs.length ∧ t.word = s.word ∧ t.m = s.m

/-! ## alphabet_lut -/

/-- R82: `LUT.MEM c` answers 1 if c is an entry of the forward table, else 0. -/
def Obligations.LutMemAnswersMembership : Prop :=
  (∀ d : Word, decode (commandWord d 0x30) = .command (.lutMem (dataByte d 0))) ∧
  ∀ (s : State) (c : Byte),
    ((∃ d, s.alphabet.char d = c) → exec (.lutMem c) s = .next (s.answered s.word s.m ⟨.ok, 0, 0, 1⟩)) ∧
    ((∀ d, s.alphabet.char d ≠ c) → exec (.lutMem c) s = .next (s.answered s.word s.m ⟨.ok, 0, 0, 0⟩))

/-- R83: `LUT.CODE c` answers the index of c in the forward table, or 0xFFFFFFFF for a non-member. -/
def Obligations.LutCodeAnswersIndex : Prop :=
  (∀ d : Word, decode (commandWord d 0x31) = .command (.lutCode (dataByte d 0))) ∧
  ∀ s : State, s.alphabet.Valid →
    (∀ d : Digit, exec (.lutCode (s.alphabet.char d)) s =
      .next (s.answered s.word s.m ⟨.ok, 0, 0, BitVec.ofNat 32 d.val⟩)) ∧
    ∀ c : Byte, (∀ d, s.alphabet.char d ≠ c) →
      exec (.lutCode c) s = .next (s.answered s.word s.m ⟨.ok, 0, 0, 0xFFFFFFFF⟩)

/-- R84 and R185: `LUT.CHAR i` answers entry i of the forward table; an index of 85 or more is `BAD_INDEX`. -/
def Obligations.LutCharAnswersEntry : Prop :=
  (∀ d : Word, decode (commandWord d 0x32) = .command (.lutChar d.toNat)) ∧
  ∀ s : State,
    (∀ d : Digit, exec (.lutChar d.val) s =
      .next (s.answered s.word s.m ⟨.ok, 0, 0, BitVec.ofNat 32 (s.alphabet.char d).toNat⟩)) ∧
    ∀ i : Nat, i ≥ 85 → exec (.lutChar i) s = .next (s.answered s.word s.m ⟨.badIndex, 0, 0, 0⟩)

/-- R81: the code table is the inverse of the forward table. -/
def Obligations.CodeTableInvertsAlphabet : Prop :=
  ∀ a : Alphabet, a.Valid →
    (∀ d : Digit, a.code (a.char d) = some d) ∧
    (∀ (c : Byte) (d : Digit), a.code c = some d ↔ a.char d = c) ∧
    ∀ c : Byte, a.code c = none ↔ ∀ d, a.char d ≠ c

/-- 40_alphabet_lut.md section 3, which the spec derives from R81 and R9: for every valid table, exactly 85 bytes are
members, `CODE(0x30) = 0`, and the control characters, the space, both quotes, the backslash and all bytes from 0x7F
up are non-members. -/
def Obligations.MembersOfEveryAlphabet : Prop :=
  ∀ a : Alphabet, a.Valid →
    ((List.range 256).filter fun n => a.member (BitVec.ofNat 8 n)).length = 85 ∧ a.code 0x30 = some 0 ∧
    ∀ c : Byte, (c.toNat ≤ 0x20 ∨ c = 0x22 ∨ c = 0x27 ∨ c = 0x5C ∨ 0x7F ≤ c.toNat) → a.member c = false

/-! ## Length unit -/

/-- R103: `LEN.ENC n` for every n: the exact encoded length, `OVERFLOW` past 1717986917, `INVALID_LENGTH` below 0. -/
def Obligations.LenEncAnswers : Prop :=
  (∀ d : Word, decode (commandWord d 0x40) = .command (.lenEnc d.toInt)) ∧
  ∀ (s : State) (n : Int),
    (n < 0 → exec (.lenEnc n) s = .next (s.answered s.word s.m ⟨.invalidLength, 0, 0, 0xFFFFFFFF⟩)) ∧
    (0 ≤ n ∧ n ≤ 1717986917 → exec (.lenEnc n) s = .next (s.answered s.word s.m
      ⟨.ok, 0, 0, BitVec.ofInt 32 (5 * (n / 4) + if n % 4 = 0 then 0 else 1 + n % 4)⟩)) ∧
    (1717986917 < n → exec (.lenEnc n) s = .next (s.answered s.word s.m ⟨.overflow, 0, 0, 0xFFFFFFFF⟩))

/-- R104: `LEN.DEC n` for every n: the exact decoded length, `INVALID_LENGTH` below 0, never `OVERFLOW`. -/
def Obligations.LenDecAnswers : Prop :=
  (∀ d : Word, decode (commandWord d 0x41) = .command (.lenDec d.toInt)) ∧
  ∀ (s : State) (n : Int),
    (n < 0 → exec (.lenDec n) s = .next (s.answered s.word s.m ⟨.invalidLength, 0, 0, 0xFFFFFFFF⟩)) ∧
    (0 ≤ n → exec (.lenDec n) s = .next (s.answered s.word s.m
      ⟨.ok, 0, 0, BitVec.ofInt 32 (4 * (n / 5) + max 0 (n % 5 - 1))⟩))

/-- 41_length.md section 1, which the spec derives: `elen` does not decrease, and `elen(n)` is representable exactly
for n up to 1717986917. -/
def Obligations.EncodedLengthBoundary : Prop :=
  (∀ n m : Nat, n ≤ m → elen n ≤ elen m) ∧ (∀ n : Nat, elen n ≤ Config.lenMax ↔ n ≤ 1717986917) ∧
    elen 1717986917 = 2147483647 ∧ elen 1717986918 = 2147483648

/-- 41_length.md section 3, which the spec derives: the properties of the two length functions. -/
def Obligations.LengthFunctionProperties : Prop :=
  elen 0 = 0 ∧ dlen 0 = 0 ∧ (∀ n m : Nat, n ≤ m → elen n ≤ elen m ∧ dlen n ≤ dlen m) ∧
    ∀ n : Nat, dlen n ≤ n ∧ dlen (elen n) = n ∧ elen n % 5 ≠ 1

/-! ## base85_decoder -/

/-- R143 with R140 and R142: a non-member changes nothing; a member of digit d adds `d * 85^M` modulo 2^32 and counts;
the fifth member of a group flushes the 4 bytes of the sum and clears `WORD` and `M`. -/
def Obligations.DecCharFeedsDecoder : Prop :=
  (∀ d : Word, decode (commandWord d 0x20) = .command (.decChar (dataByte d 0))) ∧
  ∀ s : State, s.alphabet.Valid →
    (∀ c : Byte, (∀ d, s.alphabet.char d ≠ c) →
      exec (.decChar c) s = .next (s.answered s.word s.m ⟨.ok, 0, 0, 0⟩)) ∧
    ∀ d : Digit,
      (s.m.toNat < 4 → exec (.decChar (s.alphabet.char d)) s =
        .next (s.answered (BitVec.ofNat 32 (s.word.toNat + d.val * 85 ^ s.m.toNat)) (s.m + 1) ⟨.ok, 0, 0, 0⟩)) ∧
      (s.m.toNat = 4 → exec (.decChar (s.alphabet.char d)) s =
        .next (s.answered 0 0
          ⟨.ok, 4, BitVec.ofNat 40 ((s.word.toNat + d.val * 85 ^ 4) % 2 ^ 32), 0⟩))

/-- 43_decoder.md section 1: a group from a cleared decoder. While it is open, `WORD` is the number its digits spell and
`M` their count, and nothing is emitted; the fifth digit emits the 4 low bytes of the unbounded sum, also where that is
2^32 or more, and clears the decoder. -/
def Obligations.DecoderSpellsGroup : Prop :=
  ∀ (s : State) (ds : List Digit), s.alphabet.Valid → s.StreamMayBegin →
    (ds.length ≤ 4 → ∃ t, run (assembleWords (decBuf (ds.map s.alphabet.char))) s = .next t ∧
      t.word.toNat = digitValue ds ∧ t.m.toNat = ds.length ∧ newItems s t = []) ∧
    (ds.length = 5 → ∃ t, run (assembleWords (decBuf (ds.map s.alphabet.char))) s = .next t ∧
      t.word = 0 ∧ t.m = 0 ∧
      newItems s t = (List.range 4).map fun j => BitVec.ofNat 8 (digitValue ds / 256 ^ j))

/-- R144: `DEC.FINAL` emits the M - 1 low bytes of `WORD` where M is 2 or more, none for M = 0 and 1, and clears the
decoder. -/
def Obligations.DecFinalEmitsTrailingBytes : Prop :=
  (∀ d : Word, decode (commandWord d 0x21) = .command .decFinal) ∧
  ∀ s : State, s.m.toNat ≤ 4 → ∃ r, exec .decFinal s = .next (s.answered 0 0 r) ∧
    r.st = .ok ∧ r.val = 0 ∧ r.n = (if 2 ≤ s.m.toNat then s.m - 1 else 0) ∧
    ∀ j, r.item j = if 2 ≤ s.m.toNat ∧ j ≤ s.m.toNat - 2 then s.word.extractLsb' (8 * j) 8 else 0

/-- R145: `DEC.CLEAR` discards the group and emits nothing. -/
def Obligations.DecClearDiscardsGroup : Prop :=
  (∀ d : Word, decode (commandWord d 0x22) = .command .decClear) ∧
  ∀ s : State, exec .decClear s = .next (s.answered 0 0 ⟨.ok, 0, 0, 0⟩)

/-- The ways `WORD` and `M` are cleared: a `DEC.CHAR` that completes a group, `DEC.FINAL`, `DEC.CLEAR`, a reset step. -/
abbrev Sys2Proof.Machine.ClearsDecoder (s t : State) : Prop :=
  (∃ c, s.alphabet.member c = true ∧ s.m.toNat = 4 ∧ exec (.decChar c) s = .next t) ∨
  exec .decFinal s = .next t ∨ exec .decClear s = .next t ∨
  ∃ (p : PortInput) (rest : List PortInput), p.rst = true ∧ step (s.withInputs (p :: rest)) = .next t

/-- R146 and R147: `DEC.RDW` answers `WORD`, `DEC.RDM` answers `M`; directly after a flush or reset both answer 0; in
every reachable state they answer less than 85^M and at most 4; a non-member `DEC.CHAR` does not change what `DEC.RDM`
returns. -/
def Obligations.DecoderRegistersReadBack : Prop :=
  (∀ d : Word, decode (commandWord d 0x23) = .command .decRdw ∧
    decode (commandWord d 0x24) = .command .decRdm) ∧
  (∀ s : State, exec .decRdw s = .next (s.answered s.word s.m ⟨.ok, 0, 0, s.word⟩) ∧
    exec .decRdm s = .next (s.answered s.word s.m ⟨.ok, 0, 0, BitVec.ofNat 32 s.m.toNat⟩)) ∧
  (∀ s t : State, ClearsDecoder s t ∨ t = State.reset →
    exec .decRdw t = .next (t.answered 0 0 ⟨.ok, 0, 0, 0⟩) ∧
    exec .decRdm t = .next (t.answered 0 0 ⟨.ok, 0, 0, 0⟩)) ∧
  (∀ s : State, Reachable s → s.word.toNat < 85 ^ s.m.toNat ∧ s.m.toNat ≤ 4) ∧
  ∀ (s t : State) (c : Byte), s.alphabet.member c = false → exec (.decChar c) s = .next t →
    exec .decRdm t = .next (t.answered s.word s.m ⟨.ok, 0, 0, BitVec.ofNat 32 s.m.toNat⟩)

/-- 43_decoder.md section 3, which the spec derives: dropping the non-members of a character sequence changes neither
the items of its decoding nor the decoder. -/
def Obligations.NonMembersAreInvisible : Prop :=
  ∀ (s : State) (cs : List Byte), ∃ t u,
    run (assembleWords (decStr cs)) s = .next t ∧
    run (assembleWords (decStr (cs.filter s.alphabet.member))) s = .next u ∧
    newItems s t = newItems s u ∧ t.word = u.word ∧ t.m = u.m

/-- 43_decoder.md section 3, which the spec derives: decoding a sequence with n members, from a cleared decoder, emits
exactly `dlen(n)` bytes and clears the decoder. -/
def Obligations.DecodedStreamHasDecodedLength : Prop :=
  ∀ (s : State) (cs : List Byte), s.StreamMayBegin →
    ∃ t, run (assembleWords (decStr cs)) s = .next t ∧
      (newItems s t).length = dlen (cs.filter s.alphabet.member).length ∧ t.StreamMayBegin

/-- 43_decoder.md section 3, which the spec derives, the block's purpose: whatever bytes a host encodes with
`ENC.BUF`, and however it interleaves non-members into the characters, `DEC.STR` returns the bytes. -/
def Obligations.DecodeOfNoisyEncodingIsIdentity : Prop :=
  ∀ (s : State) (bs : List Byte), s.alphabet.Valid → s.StreamMayBegin →
    ∃ t, run (assembleWords (encBuf bs)) s = .next t ∧
      ∀ cs : List Byte, cs.filter s.alphabet.member = newItems s t →
        ∃ u, run (assembleWords (decStr cs)) t = .next u ∧ newItems t u = bs ∧ u.StreamMayBegin

/-- 43_decoder.md section 3, which the spec derives: decoding a group the encoder can have produced (full or final
partial), with any non-members among its characters, drops nothing: one byte fewer than it has digits, and the bytes
spell the number its digits spell. -/
def Obligations.CanonicalGroupsLoseNothing : Prop :=
  ∀ (s : State) (cs : List Byte), s.StreamMayBegin → CanonicalGroup (memberDigits s.alphabet cs) →
    ∃ t, run (assembleWords (decStr cs)) s = .next t ∧ t.StreamMayBegin ∧
      (newItems s t).length = (memberDigits s.alphabet cs).length - 1 ∧
      leValue (newItems s t) = digitValue (memberDigits s.alphabet cs)

/-! ## Control -/

/-- R170: `NOP` answers `OK` and changes nothing. -/
def Obligations.NopDoesNothing : Prop :=
  (∀ d : Word, decode (commandWord d 0x00) = .command .nop) ∧
  ∀ s : State, exec .nop s = .next (s.answered s.word s.m ⟨.ok, 0, 0, 0⟩)

/-! ## The whole machine -/

/-- Every step keeps the invariant: `M` is 0..4, `WORD < 85^M` and the forward table meets R9; and it never writes the
table. -/
def Obligations.EveryStepKeepsInvariant : Prop :=
  ∀ s t : State, s.Inv → step s = .next t → t.Inv ∧ t.alphabet = s.alphabet

/-- The invariant holds right after reset. -/
def Obligations.InvariantHoldsAtReset : Prop := State.reset.Inv

/-- 10_state.md section 1, which the spec derives: in every reachable state `M` is one of 0..4 and `WORD < 85^M`, so
`WORD = 0` when `M = 0`; the tables are the build-time ones. -/
def Obligations.ReachableStatesMeetInvariant : Prop :=
  ∀ s : State, Reachable s →
    (s.m = 0 ∨ s.m = 1 ∨ s.m = 2 ∨ s.m = 3 ∨ s.m = 4) ∧ s.word.toNat < 85 ^ s.m.toNat ∧
    (s.m = 0 → s.word = 0) ∧ s.alphabet = Config.alphabet ∧ s.alphabet.Valid

/-- 20_memory.md section 4: only `DEC.CHAR` of a member, `DEC.FINAL` and `DEC.CLEAR` write state. Every other command
leaves `WORD` and `M` unchanged and, repeated, answers the same. -/
def Obligations.OnlyDecoderCommandsWriteState : Prop :=
  ∀ (s t : State) (i : Instr), exec i s = .next t →
    t.alphabet = s.alphabet ∧ t.inputs = s.inputs ∧
    (i ≠ .decFinal → i ≠ .decClear → (∀ c, i = .decChar c → s.alphabet.member c = false) →
      t.word = s.word ∧ t.m = s.m ∧ ∃ u, exec i t = .next u ∧ u.rsp = t.rsp)

/-- 60_exceptions.md section 1: a command that answers an error writes no state, returns no items, and has `VAL =
0xFFFFFFFF` for the two length errors and 0 for the others. -/
def Obligations.ErrorsWriteNoState : Prop :=
  ∀ (s t : State) (cw : CommandWord) (r : Response), runCommand cw s = .next t → t.rsp = some r → r.st ≠ .ok →
    t = s.answered s.word s.m r ∧ r.n = 0 ∧ r.out = 0 ∧
    r.val = if r.st = .invalidLength ∨ r.st = .overflow then 0xFFFFFFFF else 0

/-- R26: what earlier commands answered is neither read nor kept: with any other earlier responses, a command answers
the same and leaves the same `WORD` and `M`. -/
def Obligations.NoStatusIsSticky : Prop :=
  ∀ (s t : State) (cw : CommandWord) (o : Option Response) (os : List Response),
    runCommand cw s = .next t →
    ∃ u, runCommand cw { s with rsp := o, rsps := os } = .next u ∧ u.rsp = t.rsp ∧ u.word = t.word ∧ u.m = t.m

/-- R188 with R69: which status code a command puts on `rsp_st`, by the checks in their order. -/
def Obligations.StatusFollowsPriority : Prop :=
  ∀ (s : State) (cw : CommandWord), ∃ t r, runCommand cw s = .next t ∧ t.rsp = some r ∧
    r.ports.rspSt =
      if ReservedOpc cw.opc.toNat then 1
      else if (cw.opc = 0x40 ∨ cw.opc = 0x41) ∧ cw.data.toInt < 0 then 2
      else if cw.opc = 0x40 ∧ elen cw.data.toInt.toNat > 2147483647 then 3
      else if cw.opc = 0x32 ∧ cw.data.toNat ≥ 85 then 4
      else 0

/-- R68: every response field the command's rule does not set is 0: `OUT` above its items always, `VAL` for commands
that return items, `N` and `OUT` for commands that return `VAL`, all of them for the others. -/
def Obligations.UnsetResponseFieldsAreZero : Prop :=
  ∀ (s t : State) (cw : CommandWord) (r : Response), s.m.toNat ≤ 4 → runCommand cw s = .next t → t.rsp = some r →
    r.n.toNat ≤ 5 ∧ r.out.toNat < 256 ^ r.n.toNat ∧
    (∀ i, decode cw = .command i →
      (returnsItems i = true → r.val = 0) ∧
      (returnsItems i = false → r.n = 0 ∧ r.out = 0) ∧
      (returnsItems i = false → returnsValue i = false → r.val = 0)) ∧
    ∀ o, decode cw = .reserved o → r.n = 0 ∧ r.out = 0 ∧ r.val = 0

/-- R30: the commands of the encoder, the length unit and the alphabet_lut are pure: what they answer depends on the
command and the table, not on `WORD`, `M` or anything else, and they keep no state. -/
def Obligations.StatelessUnitsArePure : Prop :=
  ∀ (s s' t t' : State) (i : Instr), i.codecUnit = .encoder ∨ i.codecUnit = .alphabetLut ∨ i.codecUnit = .length →
    s.alphabet = s'.alphabet → exec i s = .next t → exec i s' = .next t' →
    t.rsp = t'.rsp ∧ t.word = s.word ∧ t.m = s.m

/-- 70_reset_and_hazards.md section 3 with 44_control.md: every command but the three decoder commands that write,
reserved ones included, may be interleaved with a decode stream: leaving them out leaves the decoder the same. -/
def Obligations.InterleavedCommandsLeaveDecoder : Prop :=
  ∀ (s : State) (cws : List CommandWord), ∃ t u, run cws s = .next t ∧
    run (cws.filter fun cw => cw.opc == 0x20 || cw.opc == 0x21 || cw.opc == 0x22) s = .next u ∧
    t.word = u.word ∧ t.m = u.m

/-- 70_reset_and_hazards.md section 6 with 20_memory.md section 6: a run of a list of command words answers once per
command, in order; a run of two lists is the run of the second after the first. -/
def Obligations.RunAnswersInOrder : Prop :=
  ∀ (s : State) (cws cws' : List CommandWord), ∃ t, run cws s = .next t ∧
    (newResponses s t).length = cws.length ∧ s.rsps <+: t.rsps ∧ t.inputs = [] ∧
    run (cws ++ cws') s = run cws' t

/-- 93_implementation_defined.md I6 with 30_encoding.md section 3: a program of assembled commands meets the premise "no
`ILLEGAL` response": only a reserved opcode gives one. -/
def Obligations.AssembledProgramsGiveNoIllegal : Prop :=
  (∀ (s : State) (is : List Instr), (∀ i ∈ is, i.WellFormed) → s.NoIllegal →
    ∃ t, run (assembleWords is) s = .next t ∧ t.NoIllegal) ∧
  ∀ (s t : State) (i : Instr) (r : Response), exec i s = .next t → t.rsp = some r → r.st ≠ .illegal
end

