-- ==== Sys2Proof/Laws/Asm.lean ====
section
/-! SUPPORT. The assembler: what its shared operations answer, and that it makes well-formed commands only. -/

namespace Sys2Proof.Machine

/-- The operands are byte operands and stand for these bytes. -/
theorem operandBytes_eq_some {a : Alphabet} {os : List AsmOperand} {bs : List Byte} :
    operandBytes a os = some bs ↔ os.map (operandByte a) = bs.map some := by
  induction os generalizing bs with
  | nil => cases bs <;> simp [operandBytes]
  | cons o os ih =>
    cases bs with
    | nil => cases h : operandByte a o <;> cases h' : operandBytes a os <;> simp [operandBytes, h, h']
    | cons b bs =>
      rw [List.map_cons, List.map_cons, List.cons.injEq, ← ih]
      cases h : operandByte a o <;> cases h' : operandBytes a os <;> simp [operandBytes, h, h']

theorem withoutOperand_eq_some {i : Instr} {os : List AsmOperand} {is : List Instr} :
    withoutOperand i os = some is ↔ os = [] ∧ is = [i] := by
  cases os <;> simp [withoutOperand, eq_comm]

theorem withOperand_eq_some {α : Type} {value : AsmOperand → Option α} {f : α → Instr} {os : List AsmOperand}
    {is : List Instr} :
    withOperand value f os = some is ↔ ∃ o v, os = [o] ∧ value o = some v ∧ (f v).WellFormed ∧ is = [f v] := by
  match os with
  | [] => simp [withOperand]
  | [o] =>
    cases h : value o with
    | none => simp [withOperand, h]
    | some v =>
      by_cases hw : (f v).wf = true
      · simp [withOperand, h, Instr.WellFormed, hw, @eq_comm _ is]
      · simp [withOperand, h, hw]
  | _ :: _ :: _ => simp [withOperand]

theorem withBlock_eq_some {a : Alphabet} {k : Nat} {os : List AsmOperand} {is : List Instr} :
    withBlock a k os = some is ↔
      ∃ bs : List Byte, os.map (operandByte a) = bs.map some ∧ bs.length = k ∧ is = encBuf bs := by
  simp only [withBlock, Option.bind_eq_some_iff, operandBytes_eq_some]
  constructor
  · rintro ⟨bs, h, h'⟩
    split at h'
    · exact ⟨bs, h, ‹_›, by simpa using h'.symm⟩
    · cases h'
  · rintro ⟨bs, h, hk, rfl⟩
    exact ⟨bs, h, by simp [hk]⟩

/-- The commands of `ENC.BUF` are well formed. -/
theorem encBuf_wf : (bs : List Byte) → ∀ i ∈ encBuf bs, i.WellFormed
  | b0 :: b1 :: b2 :: b3 :: rest => by
    simp only [encBuf, List.mem_cons, forall_eq_or_imp]
    exact ⟨rfl, encBuf_wf rest⟩
  | [_, _, _] => by simp [encBuf, Instr.WellFormed, Instr.wf]
  | [_, _] => by simp [encBuf, Instr.WellFormed, Instr.wf]
  | [_] => by simp [encBuf, Instr.WellFormed, Instr.wf]
  | [] => by simp [encBuf]

/-- The commands of `DEC.STR` are well formed. -/
theorem decStr_wf (cs : List Byte) : ∀ i ∈ decStr cs, i.WellFormed := by
  intro i hi
  simp only [decStr, decBuf, List.mem_append, List.mem_map, List.mem_singleton] at hi
  obtain ⟨c, -, rfl⟩ | rfl := hi <;> rfl

/-- Every assembled command is well formed. -/
theorem assemble_wf {a : Alphabet} {line : AsmLine} {is : List Instr} (h : assemble a line = some is) :
    ∀ i ∈ is, i.WellFormed := by
  have without {i0 : Instr} (h0 : i0.WellFormed) (h : withoutOperand i0 line.operands = some is) :
      ∀ i ∈ is, i.WellFormed := by
    obtain ⟨-, rfl⟩ := withoutOperand_eq_some.1 h
    simpa using h0
  have one {α : Type} {value : AsmOperand → Option α} {f : α → Instr}
      (h : withOperand value f line.operands = some is) : ∀ i ∈ is, i.WellFormed := by
    obtain ⟨-, v, -, -, hv, rfl⟩ := withOperand_eq_some.1 h
    simpa using hv
  have block {k : Nat} (h : withBlock a k line.operands = some is) : ∀ i ∈ is, i.WellFormed := by
    obtain ⟨bs, -, -, rfl⟩ := withBlock_eq_some.1 h
    exact encBuf_wf bs
  unfold assemble at h
  cases hm : line.mnemonic <;> rw [hm] at h <;>
    first
    | exact without rfl h
    | exact one h
    | exact block h
    | (obtain ⟨bs, -, rfl⟩ := Option.map_eq_some_iff.1 h
       first
       | exact encBuf_wf bs
       | exact decStr_wf bs
       | exact fun i hi => decStr_wf bs i (List.mem_append_left _ hi))

end Sys2Proof.Machine
end

