-- ==== Sys2Proof/Laws/AsmText.lean ====
section
/-! SUPPORT. Reading assembler text: numbers, operands and the pieces between commas are read back as written. -/

namespace Sys2Proof.Machine

/-! ## Numbers -/

theorem digitOf_digitChar (u : Bool) {base d : Nat} (hb : base = 10 ∨ base = 16) (h : d < base) :
    digitOf base (digitChar u d) = some d := by
  rcases hb with rfl | rfl <;> revert d <;> cases u <;> decide

/-- A digit's character is none of those that separate or begin operands. -/
theorem digitChar_ne (u : Bool) : ∀ d < 16, digitChar u d ≠ ',' ∧ digitChar u d ≠ ' ' ∧ digitChar u d ≠ 'x' ∧
    digitChar u d ≠ '\'' ∧ digitChar u d ≠ '[' ∧ digitChar u d ≠ '-' := by
  cases u <;> decide

theorem numberFrom_digits (u : Bool) {base : Nat} (hb : base = 10 ∨ base = 16) (ds : List Nat)
    (h : ∀ d ∈ ds, d < base) (acc : Nat) :
    numberFrom base acc (ds.map (digitChar u)) = some (acc * base ^ ds.length + Nat.ofDigits base ds.reverse) := by
  induction ds generalizing acc with
  | nil => simp [numberFrom]
  | cons d ds ih =>
    rw [List.map_cons, numberFrom, digitOf_digitChar u hb (h d (by simp)), Option.bind_some,
      ih fun d hd => h d (by simp [hd]), List.reverse_cons, Nat.ofDigits_append, List.length_reverse,
      List.length_cons, Nat.ofDigits_singleton, pow_succ]
    congr 1
    ring

theorem numberOf_eq_some {base n : Nat} {cs : List Char} (hne : cs ≠ []) (h : numberFrom base 0 cs = some n) :
    numberOf base cs = some n := by
  cases cs with
  | nil => exact absurd rfl hne
  | cons c cs => exact h

theorem decimalDigits_lt (n : Nat) : ∀ d ∈ decimalDigits n, d < 10 := by
  unfold decimalDigits
  split
  · simp
  · exact fun d hd => Nat.digits_lt_base (by decide) (List.mem_reverse.1 hd)

theorem decimalText_ne_nil (n : Nat) : decimalText n ≠ [] := by
  unfold decimalText decimalDigits
  split
  · simp
  · simpa [Nat.digits_eq_nil_iff_eq_zero] using ‹_›

/-- A number written in decimal is read back. -/
theorem numberOf_decimalText (n : Nat) : numberOf 10 (decimalText n) = some n := by
  refine numberOf_eq_some (decimalText_ne_nil n) ?_
  rw [decimalText, numberFrom_digits _ (.inl rfl) _ (decimalDigits_lt n)]
  unfold decimalDigits
  split
  · subst n; rfl
  · simp [Nat.ofDigits_digits]

/-- Hex digits are read back as the number they write, modulo what they can hold. -/
theorem numberFrom_hexText (u : Bool) (w n acc : Nat) :
    numberFrom 16 acc (hexText u w n) = some (acc * 16 ^ w + n % 16 ^ w) := by
  induction w generalizing acc with
  | zero => simp [hexText, numberFrom, Nat.mod_one]
  | succ w ih =>
    rw [hexText, numberFrom, digitOf_digitChar u (.inr rfl) (Nat.mod_lt _ (by decide)), Option.bind_some, ih]
    congr 1
    rw [pow_succ, Nat.mod_mul]
    ring

@[simp] theorem hexText_length (u : Bool) (w n : Nat) : (hexText u w n).length = w := by
  induction w with
  | zero => rfl
  | succ w ih => simp [hexText, ih]

/-! ## Operands -/

/-- A character that neither separates operands nor surrounds them. -/
abbrev inOperand (c : Char) : Prop := c ≠ ',' ∧ c ≠ ' '

theorem hexText_inOperand (u : Bool) (w n : Nat) : ∀ c ∈ hexText u w n, inOperand c := by
  induction w with
  | zero => simp [hexText]
  | succ w ih =>
    have h := digitChar_ne u _ (Nat.mod_lt (n / 16 ^ w) (show 0 < 16 by decide))
    simp only [hexText, List.mem_cons, forall_eq_or_imp]
    exact ⟨⟨h.1, h.2.1⟩, ih⟩

theorem decimalText_ne (n : Nat) : ∀ c ∈ decimalText n, c ≠ ',' ∧ c ≠ ' ' ∧ c ≠ 'x' ∧ c ≠ '\'' ∧ c ≠ '[' ∧ c ≠ '-' := by
  intro c hc
  obtain ⟨d, hd, rfl⟩ := List.mem_map.1 hc
  exact digitChar_ne true d (Nat.lt_trans (decimalDigits_lt n d hd) (by decide))

theorem decimalText_inOperand (n : Nat) : ∀ c ∈ decimalText n, inOperand c :=
  fun c h => ⟨(decimalText_ne n c h).1, (decimalText_ne n c h).2.1⟩

/-- A writable operand is read back as written. -/
theorem readOperand_text (u : Bool) (o : AsmOperand) (h : o.Writable) : readOperand (o.text u) = some o := by
  cases o with
  | hex w n =>
    have hne : hexText u w n ≠ [] := fun e => by
      have hw := hexText_length u w n
      rw [e, List.length_nil] at hw
      exact Nat.ne_of_lt h.1 hw
    rw [AsmOperand.text, readOperand, numberOf_eq_some hne (numberFrom_hexText u w n 0), Nat.mod_eq_of_lt h.2]
    simp
  | alphabetAt i =>
    simp only [AsmOperand.text, readOperand, alphabetOperand, List.getLast?_append, List.getLast?_singleton,
      List.dropLast_concat, numberOf_decimalText]
    simp
  | quotedZero => rfl
  | decimal n =>
    have h1 := decimalText_ne n
    have h2 := numberOf_decimalText n
    simp only [AsmOperand.text]
    generalize decimalText n = cs at h1 h2
    unfold readOperand
    split
    · exact absurd rfl (h1 'x' (by simp)).2.2.1
    · exact absurd rfl (h1 '\'' (by simp)).2.2.2.1
    · exact absurd rfl (h1 '[' (by simp)).2.2.2.2.1
    · exact absurd rfl (h1 '-' (by simp)).2.2.2.2.2
    · rw [h2]; rfl
  | negative n => simp [AsmOperand.text, readOperand, numberOf_decimalText]

theorem operandText_inOperand (u : Bool) (o : AsmOperand) : ∀ c ∈ o.text u, inOperand c := by
  cases o with
  | hex w n =>
    simp only [AsmOperand.text, List.mem_cons, forall_eq_or_imp]
    exact ⟨by decide, by decide, hexText_inOperand u w n⟩
  | alphabetAt i =>
    simp only [AsmOperand.text, List.mem_cons, forall_eq_or_imp, List.mem_append]
    refine ⟨by decide, by decide, ?_⟩
    rintro c (h | rfl | h)
    · exact decimalText_inOperand _ c h
    · decide
    · cases h
  | quotedZero => simp [AsmOperand.text, inOperand]
  | decimal n => exact decimalText_inOperand n
  | negative n =>
    simp only [AsmOperand.text, List.mem_cons, forall_eq_or_imp]
    exact ⟨by decide, decimalText_inOperand n⟩

theorem operandText_ne_nil (u : Bool) (o : AsmOperand) : o.text u ≠ [] := by
  cases o with
  | decimal n => exact decimalText_ne_nil n
  | _ => simp [AsmOperand.text]

/-! ## Spaces and commas -/

theorem dropWhile_space {cs : List Char} (h : cs.head? ≠ some ' ') : cs.dropWhile (· == ' ') = cs := by
  cases cs with
  | nil => rfl
  | cons c cs =>
    simp only [List.head?_cons, ne_eq, Option.some.injEq] at h
    simp [h]

/-- A sequence that neither begins nor ends with a space is its own trimming. -/
theorem trimSpaces_id {cs : List Char} (h : cs.head? ≠ some ' ') (h' : cs.getLast? ≠ some ' ') : trimSpaces cs = cs := by
  unfold trimSpaces
  rw [dropWhile_space h, dropWhile_space, List.reverse_reverse]
  rwa [List.head?_reverse]

theorem trimSpaces_space (cs : List Char) : trimSpaces (' ' :: cs) = trimSpaces cs := by simp [trimSpaces]

theorem trimSpaces_inOperand {cs : List Char} (h : ∀ c ∈ cs, inOperand c) : trimSpaces cs = cs :=
  trimSpaces_id (fun e => (h ' ' (List.mem_of_mem_head? e)).2 rfl) fun e => (h ' ' (List.mem_of_mem_getLast? e)).2 rfl

theorem splitCommas_append {cs : List Char} (rest : List Char) (h : ∀ c ∈ cs, inOperand c) :
    splitCommas (cs ++ ',' :: rest) = cs :: splitCommas rest := by
  induction cs with
  | nil => simp [splitCommas]
  | cons c cs ih => rw [List.cons_append, splitCommas, if_neg (h c (by simp)).1, ih fun c hc => h c (by simp [hc])]

theorem splitCommas_single {cs : List Char} (h : ∀ c ∈ cs, inOperand c) : splitCommas cs = [cs] := by
  induction cs with
  | nil => simp [splitCommas]
  | cons c cs ih => rw [splitCommas, if_neg (h c (by simp)).1, ih fun c hc => h c (by simp [hc])]

theorem splitCommas_ne_nil (cs : List Char) : splitCommas cs ≠ [] := by
  cases cs with
  | nil => simp [splitCommas]
  | cons c cs =>
    rw [splitCommas]
    split
    · simp
    · split <;> simp

/-- A space before the first operand makes no difference. -/
theorem readOperands_space (cs : List Char) :
    readOperands (splitCommas (' ' :: cs)) = readOperands (splitCommas cs) := by
  rw [splitCommas, if_neg (by decide)]
  cases h : splitCommas cs with
  | nil => exact absurd h (splitCommas_ne_nil cs)
  | cons w ws => simp only [readOperands, trimSpaces_space]

/-- Writable operands are read back as written. -/
theorem readOperands_operandsText (u : Bool) : (os : List AsmOperand) → os ≠ [] → (∀ o ∈ os, o.Writable) →
    readOperands (splitCommas (operandsText u os)) = some os
  | [], hne, _ => absurd rfl hne
  | [o], _, h => by
    have ho := operandText_inOperand u o
    rw [operandsText, splitCommas_single ho]
    simp [readOperands, trimSpaces_inOperand ho, readOperand_text u o (h o (by simp))]
  | o :: o' :: os, _, h => by
    have ho := operandText_inOperand u o
    have ih := readOperands_operandsText u (o' :: os) (by simp) fun x hx => h x (List.mem_cons_of_mem o hx)
    rw [operandsText, splitCommas_append _ ho, readOperands, readOperands_space, ih, trimSpaces_inOperand ho,
      readOperand_text u o (h o (by simp))]
    simp

end Sys2Proof.Machine
end

