-- ==== Sys2Proof/Laws/CommandWord.lean ====
section
/-! SUPPORT. The fields of a command word that is made of a `DATA` and an `OPC` (30_encoding.md R60). -/

namespace Sys2Proof

/-- Bit i of a command word: of `OPC` below bit 8, of `DATA` from there up. -/
theorem commandWord_getLsbD (d : Word) (o : Byte) (i : Nat) :
    (commandWord d o).getLsbD i = if i < 8 then o.getLsbD i else d.getLsbD (i - 8) := by
  unfold commandWord
  exact BitVec.getLsbD_append

/-- `OPC` of the word that is made of a `DATA` and an `OPC`. -/
@[simp] theorem commandWord_opc (d : Word) (o : Byte) : (commandWord d o).opc = o := by
  apply BitVec.eq_of_getLsbD_eq
  intro i hi
  simp only [CommandWord.opc, BitVec.getLsbD_extractLsb', commandWord_getLsbD, hi, decide_true, Bool.true_and,
    Nat.zero_add, if_true]

/-- `DATA` of the word that is made of a `DATA` and an `OPC`. -/
@[simp] theorem commandWord_data (d : Word) (o : Byte) : (commandWord d o).data = d := by
  apply BitVec.eq_of_getLsbD_eq
  intro i hi
  simp only [CommandWord.data, BitVec.getLsbD_extractLsb', commandWord_getLsbD, hi, decide_true, Bool.true_and,
    show ¬ 8 + i < 8 by omega, if_false, Nat.add_sub_cancel_left]

/-- A command word is its two fields. -/
theorem commandWord_fields (cw : CommandWord) : commandWord cw.data cw.opc = cw := by
  apply BitVec.eq_of_getLsbD_eq
  intro i hi
  simp only [CommandWord.data, CommandWord.opc, commandWord_getLsbD, BitVec.getLsbD_extractLsb']
  by_cases h : i < 8
  · simp [h]
  · simp [h, show i - 8 < 32 by omega, show 8 + (i - 8) = i by omega]

/-- Decoding a command word looks at its fields. -/
theorem decode_commandWord (d : Word) (o : Byte) :
    decode (commandWord d o) = match decodeFields o d with | some i => .command i | none => .reserved o := by
  cases h : decodeFields o d <;> simp [decode, h]

end Sys2Proof
end

