-- ==== Sys2Proof/Laws/Digits.lean ====
section
/-! SUPPORT. Digits: how many, each one, and the radix facts of 00_scope.md R19. -/

namespace Sys2Proof.Machine

/-- Every k-byte value has at most k + 1 base-85 digits (00_scope.md R19). -/
theorem pow256_le_pow85 {k : Nat} (h : k ≤ 4) : 256 ^ k ≤ 85 ^ (k + 1) := by
  interval_cases k <;> decide

@[simp] theorem digits_length (count v : Nat) : (digits count v).length = count := by
  induction count generalizing v with
  | zero => rfl
  | succ n ih => simp [digits, ih]

/-- Digit j of the conversion is the digit of weight 85^j. -/
theorem digits_getElem (count v j : Nat) (h : j < (digits count v).length) :
    (digits count v)[j].val = v / 85 ^ j % 85 := by
  induction count generalizing v j with
  | zero => simp [digits] at h
  | succ n ih =>
    cases j with
    | zero => simp [digits]
    | succ j =>
      simp only [digits, List.getElem_cons_succ]
      rw [ih, pow_succ', Nat.div_div_eq_div_mul]

theorem digitValue_lt (ds : List Digit) : digitValue ds < 85 ^ ds.length := by
  induction ds with
  | nil => simp [digitValue]
  | cons d ds ih =>
    have := d.isLt
    simp only [digitValue, List.length_cons, pow_succ]
    omega

/-- The digits spell the value modulo 85^count. -/
theorem digitValue_digits (count v : Nat) : digitValue (digits count v) = v % 85 ^ count := by
  induction count generalizing v with
  | zero => simp [digits, digitValue, Nat.mod_one]
  | succ n ih => simp only [digits, digitValue, ih]; rw [pow_succ', Nat.mod_mul]

/-- Conversion is the inverse of spelling: no other digits of that number spell the same value. -/
theorem digits_digitValue (ds : List Digit) : digits ds.length (digitValue ds) = ds := by
  induction ds with
  | nil => rfl
  | cons d ds ih =>
    have hd := d.isLt
    have h1 : (d.val + 85 * digitValue ds) % 85 = d.val := by omega
    have h2 : (d.val + 85 * digitValue ds) / 85 = digitValue ds := by omega
    simp only [List.length_cons, digits, digitValue, h2, ih]
    congr 1
    exact Fin.ext h1

theorem digitValue_append (ds : List Digit) (d : Digit) :
    digitValue (ds ++ [d]) = digitValue ds + d.val * 85 ^ ds.length := by
  induction ds with
  | nil => simp [digitValue]
  | cons e ds ih => simp only [List.cons_append, digitValue, ih, List.length_cons, pow_succ]; ring

@[simp] theorem blockChars_length (a : Alphabet) (bs : List Byte) : (blockChars a bs).length = bs.length + 1 := by
  simp [blockChars]

end Sys2Proof.Machine
end

