-- ==== Sys2Proof/Laws/Responses.lean ====
section
/-! SUPPORT. Responses: the little-endian value of bytes, the bytes of a word, and the items a host reads back. -/

namespace Sys2Proof.Machine

/-- A byte sequence's value fits in its bytes. -/
theorem leValue_lt (bs : List Byte) : leValue bs < 256 ^ bs.length := by
  induction bs with
  | nil => simp [leValue]
  | cons b bs ih =>
    have := b.isLt
    simp only [leValue, List.length_cons, pow_succ]
    omega

/-- Byte j of the value of a byte sequence is its j-th byte. -/
theorem leValue_div_mod (bs : List Byte) (j : Nat) : leValue bs / 256 ^ j % 256 = (bs.getD j 0).toNat := by
  induction bs generalizing j with
  | nil => simp [leValue]
  | cons b bs ih =>
    have hb := b.isLt
    cases j with
    | zero => simp [leValue]; omega
    | succ j =>
      have : leValue (b :: bs) / 256 ^ (j + 1) = leValue bs / 256 ^ j := by
        rw [pow_succ', ← Nat.div_div_eq_div_mul]
        congr 1
        simp only [leValue]
        omega
      simpa [this] using ih j

@[simp] theorem wordBytes_length (k : Nat) (w : Word) : (wordBytes k w).length = k := by simp [wordBytes]

theorem dataByte_toNat (w : Word) (j : Nat) : (dataByte w j).toNat = w.toNat / 256 ^ j % 256 := by
  simp [dataByte, Nat.shiftRight_eq_div_pow, Nat.pow_mul]

/-- The bytes of a word as a value: the word modulo 256^k. -/
theorem leValue_wordBytes (k : Nat) (w : Word) : leValue (wordBytes k w) = w.toNat % 256 ^ k := by
  have key : ∀ (k v : Nat), leValue ((List.range k).map fun j => BitVec.ofNat 8 (v / 256 ^ j)) = v % 256 ^ k := by
    intro k
    induction k with
    | zero => intro v; simp [leValue, Nat.mod_one]
    | succ k ih =>
      intro v
      have h := ih (v / 256)
      simp only [List.range_succ_eq_map, List.map_cons, List.map_map, leValue, pow_zero, Nat.div_one,
        BitVec.toNat_ofNat, Nat.reducePow]
      rw [show ((fun j => BitVec.ofNat 8 (v / 256 ^ j)) ∘ Nat.succ) = fun j => BitVec.ofNat 8 (v / 256 / 256 ^ j) by
        funext j
        simp only [Function.comp, Nat.succ_eq_add_one, pow_succ']
        rw [Nat.div_div_eq_div_mul], h, pow_succ', Nat.mod_mul]
  rw [← key k w.toNat]
  congr 1
  unfold wordBytes
  apply List.map_congr_left
  intro j _
  apply BitVec.eq_of_toNat_eq
  rw [dataByte_toNat]
  simp

/-- Item j of a response that returns items (20_memory.md R44). -/
theorem Response.item_items (bs : List Byte) (h : bs.length ≤ 5) (j : Nat) :
    (Response.items bs).item j = bs.getD j 0 := by
  apply BitVec.eq_of_toNat_eq
  have hlt := leValue_lt bs
  have hle : leValue bs < 2 ^ 40 := lt_of_lt_of_le hlt (by
    calc 256 ^ bs.length ≤ 256 ^ 5 := Nat.pow_le_pow_right (by decide) h
      _ = 2 ^ 40 := by norm_num)
  rw [← leValue_div_mod]
  have hmod : leValue bs % 1099511627776 = leValue bs := Nat.mod_eq_of_lt hle
  simp [Response.item, Response.items, Nat.shiftRight_eq_div_pow, Nat.pow_mul, hmod]

@[simp] theorem Response.items_n (bs : List Byte) : (Response.items bs).n = BitVec.ofNat 3 bs.length := rfl
@[simp] theorem Response.items_st (bs : List Byte) : (Response.items bs).st = .ok := rfl
@[simp] theorem Response.items_val (bs : List Byte) : (Response.items bs).val = 0 := rfl

/-- What a host reads back from a response that returns items: the items. -/
theorem Response.itemList_items (bs : List Byte) (h : bs.length ≤ 5) : (Response.items bs).itemList = bs := by
  have hn : (Response.items bs).n.toNat = bs.length := by
    simp only [Response.items_n, BitVec.toNat_ofNat]
    omega
  apply List.ext_getElem
  · simp only [Response.itemList, List.length_map, List.length_range, hn]
  · intro j h1 h2
    simp only [Response.itemList, List.getElem_map, List.getElem_range]
    rw [Response.item_items bs h]
    simp [h2]

@[simp] theorem Response.itemList_plain : Response.plain.itemList = [] := rfl
@[simp] theorem Response.itemList_value (v : Word) : (Response.value v).itemList = [] := rfl
@[simp] theorem Response.itemList_error (st : Status) (v : Word) : (Response.error st v).itemList = [] := rfl

/-- No items: `OUT` is 0, as in a response with every field at its default. -/
@[simp] theorem Response.items_nil : Response.items [] = Response.plain := rfl

end Sys2Proof.Machine
end

