-- ==== Sys2Proof/Laws/State.lean ====
section
/-! SUPPORT. One lemma per field of State per update, each true by rfl, and how updates compose. -/

namespace Sys2Proof.Machine

variable (s : State)

@[simp] theorem State.respond_alphabet (r : Response) : (s.respond r).alphabet = s.alphabet := rfl
@[simp] theorem State.respond_word (r : Response) : (s.respond r).word = s.word := rfl
@[simp] theorem State.respond_m (r : Response) : (s.respond r).m = s.m := rfl
@[simp] theorem State.respond_inputs (r : Response) : (s.respond r).inputs = s.inputs := rfl
@[simp] theorem State.respond_rsp (r : Response) : (s.respond r).rsp = some r := rfl
@[simp] theorem State.respond_rsps (r : Response) : (s.respond r).rsps = s.rsps ++ [r] := rfl

@[simp] theorem State.setDecoder_alphabet (w : Word) (k : BitVec 3) : (s.setDecoder w k).alphabet = s.alphabet := rfl
@[simp] theorem State.setDecoder_word (w : Word) (k : BitVec 3) : (s.setDecoder w k).word = w := rfl
@[simp] theorem State.setDecoder_m (w : Word) (k : BitVec 3) : (s.setDecoder w k).m = k := rfl
@[simp] theorem State.setDecoder_inputs (w : Word) (k : BitVec 3) : (s.setDecoder w k).inputs = s.inputs := rfl
@[simp] theorem State.setDecoder_rsp (w : Word) (k : BitVec 3) : (s.setDecoder w k).rsp = s.rsp := rfl
@[simp] theorem State.setDecoder_rsps (w : Word) (k : BitVec 3) : (s.setDecoder w k).rsps = s.rsps := rfl

@[simp] theorem State.idle_alphabet : (s.idle).alphabet = s.alphabet := rfl
@[simp] theorem State.idle_word : (s.idle).word = s.word := rfl
@[simp] theorem State.idle_m : (s.idle).m = s.m := rfl
@[simp] theorem State.idle_inputs : (s.idle).inputs = s.inputs := rfl
@[simp] theorem State.idle_rsp : (s.idle).rsp = none := rfl
@[simp] theorem State.idle_rsps : (s.idle).rsps = s.rsps := rfl

@[simp] theorem State.applyReset_alphabet : (s.applyReset).alphabet = s.alphabet := rfl
@[simp] theorem State.applyReset_word : (s.applyReset).word = 0 := rfl
@[simp] theorem State.applyReset_m : (s.applyReset).m = 0 := rfl
@[simp] theorem State.applyReset_inputs : (s.applyReset).inputs = s.inputs := rfl
@[simp] theorem State.applyReset_rsp : (s.applyReset).rsp = none := rfl
@[simp] theorem State.applyReset_rsps : (s.applyReset).rsps = s.rsps := rfl

@[simp] theorem State.presentCommand_alphabet (cw : CommandWord) : (s.presentCommand cw).alphabet = s.alphabet := rfl
@[simp] theorem State.presentCommand_word (cw : CommandWord) : (s.presentCommand cw).word = s.word := rfl
@[simp] theorem State.presentCommand_m (cw : CommandWord) : (s.presentCommand cw).m = s.m := rfl
@[simp] theorem State.presentCommand_inputs (cw : CommandWord) : (s.presentCommand cw).inputs =
    { rst := false, cmdValid := true, cmdWord := cw } :: s.inputs := rfl
@[simp] theorem State.presentCommand_rsp (cw : CommandWord) : (s.presentCommand cw).rsp = s.rsp := rfl
@[simp] theorem State.presentCommand_rsps (cw : CommandWord) : (s.presentCommand cw).rsps = s.rsps := rfl

@[simp] theorem State.presenting_alphabet (cws : List CommandWord) : (s.presenting cws).alphabet = s.alphabet := rfl
@[simp] theorem State.presenting_word (cws : List CommandWord) : (s.presenting cws).word = s.word := rfl
@[simp] theorem State.presenting_m (cws : List CommandWord) : (s.presenting cws).m = s.m := rfl
@[simp] theorem State.presenting_inputs (cws : List CommandWord) : (s.presenting cws).inputs =
    cws.map fun cw => { rst := false, cmdValid := true, cmdWord := cw } := rfl
@[simp] theorem State.presenting_rsp (cws : List CommandWord) : (s.presenting cws).rsp = s.rsp := rfl
@[simp] theorem State.presenting_rsps (cws : List CommandWord) : (s.presenting cws).rsps = s.rsps := rfl

@[simp] theorem State.withInputs_alphabet (ps : List PortInput) : (s.withInputs ps).alphabet = s.alphabet := rfl
@[simp] theorem State.withInputs_word (ps : List PortInput) : (s.withInputs ps).word = s.word := rfl
@[simp] theorem State.withInputs_m (ps : List PortInput) : (s.withInputs ps).m = s.m := rfl
@[simp] theorem State.withInputs_inputs (ps : List PortInput) : (s.withInputs ps).inputs = ps := rfl
@[simp] theorem State.withInputs_rsp (ps : List PortInput) : (s.withInputs ps).rsp = s.rsp := rfl
@[simp] theorem State.withInputs_rsps (ps : List PortInput) : (s.withInputs ps).rsps = s.rsps := rfl

@[simp] theorem State.issuing_alphabet (cw : CommandWord) (rest : List PortInput) : (s.issuing cw rest).alphabet =
    s.alphabet := rfl
@[simp] theorem State.issuing_word (cw : CommandWord) (rest : List PortInput) : (s.issuing cw rest).word =
    s.word := rfl
@[simp] theorem State.issuing_m (cw : CommandWord) (rest : List PortInput) : (s.issuing cw rest).m = s.m := rfl
@[simp] theorem State.issuing_inputs (cw : CommandWord) (rest : List PortInput) : (s.issuing cw rest).inputs =
    { rst := false, cmdValid := true, cmdWord := cw } :: rest := rfl
@[simp] theorem State.issuing_rsp (cw : CommandWord) (rest : List PortInput) : (s.issuing cw rest).rsp = s.rsp := rfl
@[simp] theorem State.issuing_rsps (cw : CommandWord) (rest : List PortInput) : (s.issuing cw rest).rsps =
    s.rsps := rfl

@[simp] theorem State.answered_alphabet (w : Word) (k : BitVec 3) (r : Response) : (s.answered w k r).alphabet =
    s.alphabet := rfl
@[simp] theorem State.answered_word (w : Word) (k : BitVec 3) (r : Response) : (s.answered w k r).word = w := rfl
@[simp] theorem State.answered_m (w : Word) (k : BitVec 3) (r : Response) : (s.answered w k r).m = k := rfl
@[simp] theorem State.answered_inputs (w : Word) (k : BitVec 3) (r : Response) : (s.answered w k r).inputs =
    s.inputs := rfl
@[simp] theorem State.answered_rsp (w : Word) (k : BitVec 3) (r : Response) : (s.answered w k r).rsp = some r := rfl
@[simp] theorem State.answered_rsps (w : Word) (k : BitVec 3) (r : Response) : (s.answered w k r).rsps =
    s.rsps ++ [r] := rfl

/-- The last response is the new one of a list that only grew by it. -/
@[simp] theorem newResponses_answered (w : Word) (k : BitVec 3) (r : Response) :
    newResponses s (s.answered w k r) = [r] := by simp [newResponses]

@[simp] theorem State.setDecoder_respond (w : Word) (k : BitVec 3) (r : Response) :
    (s.setDecoder w k).respond r = s.answered w k r := rfl

/-- Answering without writing the decoder's registers. -/
theorem State.respond_eq_answered (r : Response) : s.respond r = s.answered s.word s.m r := rfl

end Sys2Proof.Machine
end

