-- ==== Sys2Proof/Laws/Tables.lean ====
section
/-! SUPPORT. The tables: entries of a valid alphabet, and what a hit and a miss in the code table say. -/

namespace Sys2Proof

theorem Alphabet.char_mem (a : Alphabet) (d : Digit) : a.char d ∈ a.toList := by
  simp [Alphabet.char]

theorem Alphabet.exists_char_of_mem {a : Alphabet} {c : Byte} (h : c ∈ a.toList) : ∃ d, a.char d = c := by
  obtain ⟨i, hi, rfl⟩ := List.mem_iff_getElem.1 h
  exact ⟨⟨i, by simpa using hi⟩, by simp [Alphabet.char]⟩

/-- The entries of a valid table are pairwise distinct (00_scope.md R9 (a)). -/
theorem Alphabet.Valid.char_injective {a : Alphabet} (h : a.Valid) : Function.Injective a.char := by
  intro d e hde
  have := (h.1.getElem_inj_iff (hi := by simp) (hj := by simp)).1
    (show a.toList[d.val]'(by simp) = a.toList[e.val]'(by simp) by simpa [Alphabet.char] using hde)
  exact Fin.ext this

/-- A hit of the code table is an index whose entry is the character. -/
theorem Alphabet.char_of_code {a : Alphabet} {c : Byte} {d : Digit} (h : a.code c = some d) : a.char d = c := by
  simpa using List.find?_some h

/-- A miss of the code table is a character that no entry holds. -/
theorem Alphabet.char_ne_of_code_none {a : Alphabet} {c : Byte} (h : a.code c = none) (d : Digit) : a.char d ≠ c := by
  simpa using List.find?_eq_none.1 h d (List.mem_finRange d)

/-- Every character of the table hits, whether or not the table is valid. -/
theorem Alphabet.member_char (a : Alphabet) (d : Digit) : a.member (a.char d) = true := by
  cases h : a.code (a.char d) with
  | none => exact absurd rfl (a.char_ne_of_code_none h d)
  | some e => simp [Alphabet.member, h]

theorem Alphabet.member_eq_false {a : Alphabet} {c : Byte} : a.member c = false ↔ a.code c = none := by
  simp [Alphabet.member]

end Sys2Proof
end

