-- ==== Sys2Proof/Laws/Exec.lean ====
section
/-! SUPPORT. What each shared operation and each meaning answers, once, as the next state it leaves. -/

namespace Sys2Proof.Machine

variable (s : State)

theorem complete_eq (r : Response) : complete r s = .next (s.answered s.word s.m r) := rfl

theorem raise_eq (st : Status) (v : Word) : raise st v s = .next (s.answered s.word s.m ⟨st, 0, 0, v⟩) := rfl

theorem encodeBlock_eq (bs : List Byte) :
    encodeBlock bs s = .next (s.answered s.word s.m (Response.items (blockChars s.alphabet bs))) := rfl

/-- `DEC.CHAR` of a non-member. -/
theorem execDecChar_none {c : Byte} (h : s.alphabet.code c = none) :
    execDecChar c s = .next (s.answered s.word s.m Response.plain) := by
  simp [execDecChar, h, State.respond_eq_answered]

/-- `DEC.CHAR` of a member that does not complete a group. -/
theorem execDecChar_open {c : Byte} {d : Digit} (h : s.alphabet.code c = some d) (hm : s.m.toNat ≠ 4) :
    execDecChar c s = .next (s.answered (accumulate s.word s.m d) (BitVec.ofNat 3 (s.m.toNat + 1)) Response.plain) := by
  simp [execDecChar, h, acceptDigit, hm]

/-- `DEC.CHAR` of the member that completes a group. -/
theorem execDecChar_flush {c : Byte} {d : Digit} (h : s.alphabet.code c = some d) (hm : s.m.toNat = 4) :
    execDecChar c s = .next (s.answered 0 0 (Response.items (wordBytes 4 (accumulate s.word s.m d)))) := by
  simp [execDecChar, h, acceptDigit, hm]

theorem execDecFinal_eq : execDecFinal s = .next (s.answered 0 0 (Response.items (trailingBytes s.m s.word))) := rfl

theorem execDecClear_eq : execDecClear s = .next (s.answered 0 0 Response.plain) := rfl

/-- Every length command's answer leaves `WORD` and `M`. -/
theorem lengthResponse_eq (st : Status) (v : Nat) : ∃ r, lengthResponse st v s = .next (s.answered s.word s.m r) := by
  cases st <;> exact ⟨_, rfl⟩

theorem execLutChar_eq (i : Nat) : ∃ r, execLutChar i s = .next (s.answered s.word s.m r) := by
  unfold execLutChar
  split
  · exact ⟨_, rfl⟩
  · exact ⟨_, rfl⟩

/-- What a command can do, once: it is one of the three that write the decoder's registers, or it answers and leaves
them. -/
theorem exec_cases (i : Instr) :
    (∃ r, exec i s = .next (s.answered s.word s.m r)) ∨
    (∃ c d, i = .decChar c ∧ s.alphabet.code c = some d ∧ exec i s = .next (acceptDigit d s)) ∨
    (i = .decFinal ∧ exec i s = .next (s.answered 0 0 (Response.items (trailingBytes s.m s.word)))) ∨
    (i = .decClear ∧ exec i s = .next (s.answered 0 0 Response.plain)) := by
  cases i with
  | decChar c =>
    cases h : s.alphabet.code c with
    | none => exact .inl ⟨_, execDecChar_none s h⟩
    | some d => exact .inr (.inl ⟨c, d, rfl, h, by simp [exec, execDecChar, h]⟩)
  | decFinal => exact .inr (.inr (.inl ⟨rfl, rfl⟩))
  | decClear => exact .inr (.inr (.inr ⟨rfl, rfl⟩))
  | lutChar i => exact .inl (execLutChar_eq s i)
  | lenEnc n => exact .inl (lengthResponse_eq s _ _)
  | lenDec n => exact .inl (lengthResponse_eq s _ _)
  | _ => exact .inl ⟨_, rfl⟩

/-- Accepting a digit answers once. -/
theorem acceptDigit_eq (d : Digit) : ∃ w k r, acceptDigit d s = s.answered w k r := by
  unfold acceptDigit
  dsimp only
  split
  · exact ⟨_, _, _, rfl⟩
  · exact ⟨_, _, _, rfl⟩

/-- Every command answers once and changes nothing but `WORD` and `M`. -/
theorem exec_answers (i : Instr) : ∃ w k r, exec i s = .next (s.answered w k r) := by
  obtain ⟨r, h⟩ | ⟨c, d, -, -, h⟩ | ⟨-, h⟩ | ⟨-, h⟩ := exec_cases s i
  · exact ⟨_, _, r, h⟩
  · obtain ⟨w, k, r, ha⟩ := acceptDigit_eq s d
    exact ⟨w, k, r, by rw [h, ha]⟩
  · exact ⟨_, _, _, h⟩
  · exact ⟨_, _, _, h⟩

/-- Every command word, reserved ones included, answers once and changes nothing but `WORD` and `M`. -/
theorem runCommand_answers (cw : CommandWord) : ∃ w k r, runCommand cw s = .next (s.answered w k r) := by
  unfold runCommand
  split
  · exact exec_answers s _
  · exact ⟨_, _, _, rfl⟩

/-- The state with what the host presents and has been answered replaced: only the table, `WORD` and `M` are kept. -/
def State.rehosted (ps : List PortInput) (o : Option Response) (os : List Response) : State :=
  { s with inputs := ps, rsp := o, rsps := os }

/-- What a command does depends on the forward table, `WORD` and `M` alone: whatever the host presents and has been
answered, it leaves the same `WORD` and `M` and answers the same. -/
theorem exec_depends (i : Instr) : ∃ w m r, ∀ ps o os,
    exec i (s.rehosted ps o os) = .next ((s.rehosted ps o os).answered w m r) := by
  cases i with
  | decChar c =>
    cases hc : s.alphabet.code c with
    | none => exact ⟨s.word, s.m, Response.plain, fun ps o os => execDecChar_none (s.rehosted ps o os) hc⟩
    | some d =>
      by_cases hm : s.m.toNat = 4
      · exact ⟨0, 0, Response.items (wordBytes 4 (accumulate s.word s.m d)),
          fun ps o os => execDecChar_flush (s.rehosted ps o os) hc hm⟩
      · exact ⟨accumulate s.word s.m d, BitVec.ofNat 3 (s.m.toNat + 1), Response.plain,
          fun ps o os => execDecChar_open (s.rehosted ps o os) hc hm⟩
  | lutChar i =>
    by_cases h : i < 85
    · exact ⟨s.word, s.m, Response.value (zext32 (s.alphabet.char ⟨i, h⟩)),
        fun ps o os => by simp only [exec, execLutChar, h, dif_pos]; rfl⟩
    · exact ⟨s.word, s.m, Response.error (lutCharStatus i) 0,
        fun ps o os => by simp only [exec, execLutChar, h, dif_neg, not_false_eq_true]; rfl⟩
  | lenEnc n =>
    simp only [exec, execLenEnc]
    exact ⟨s.word, s.m, (match lenEncStatus n with
      | .ok => Response.value (BitVec.ofNat 32 (elen n.toNat))
      | e => Response.error e 0xFFFFFFFF), fun ps o os => by cases lenEncStatus n <;> rfl⟩
  | lenDec n =>
    simp only [exec, execLenDec]
    exact ⟨s.word, s.m, (match lenDecStatus n with
      | .ok => Response.value (BitVec.ofNat 32 (dlen n.toNat))
      | e => Response.error e 0xFFFFFFFF), fun ps o os => by cases lenDecStatus n <;> rfl⟩
  | enc1 b0 => exact ⟨s.word, s.m, Response.items (blockChars s.alphabet [b0]), fun _ _ _ => rfl⟩
  | enc2 b0 b1 => exact ⟨s.word, s.m, Response.items (blockChars s.alphabet [b0, b1]), fun _ _ _ => rfl⟩
  | enc3 b0 b1 b2 => exact ⟨s.word, s.m, Response.items (blockChars s.alphabet [b0, b1, b2]), fun _ _ _ => rfl⟩
  | enc4 b0 b1 b2 b3 =>
    exact ⟨s.word, s.m, Response.items (blockChars s.alphabet [b0, b1, b2, b3]), fun _ _ _ => rfl⟩
  | decFinal => exact ⟨0, 0, Response.items (trailingBytes s.m s.word), fun _ _ _ => rfl⟩
  | decClear => exact ⟨0, 0, Response.plain, fun _ _ _ => rfl⟩
  | decRdw => exact ⟨s.word, s.m, Response.value s.word, fun _ _ _ => rfl⟩
  | decRdm => exact ⟨s.word, s.m, Response.value (s.m.setWidth 32), fun _ _ _ => rfl⟩
  | lutMem c => exact ⟨s.word, s.m, Response.value (if s.alphabet.member c then 1 else 0), fun _ _ _ => rfl⟩
  | lutCode c => exact ⟨s.word, s.m, Response.value (codeValue (s.alphabet.code c)), fun _ _ _ => rfl⟩
  | nop => exact ⟨s.word, s.m, Response.plain, fun _ _ _ => rfl⟩

/-- The same for a command word. -/
theorem runCommand_depends (cw : CommandWord) : ∃ w m r, ∀ ps o os,
    runCommand cw (s.rehosted ps o os) = .next ((s.rehosted ps o os).answered w m r) := by
  unfold runCommand
  cases decode cw with
  | command i => exact exec_depends s i
  | reserved o => exact ⟨s.word, s.m, Response.error .illegal 0, fun _ _ _ => rfl⟩

/-- Accumulation on numbers (43_decoder.md R140). -/
theorem accumulate_toNat (w : Word) (k : BitVec 3) (d : Digit) :
    (accumulate w k d).toNat = (w.toNat + d.val * 85 ^ k.toNat) % 2 ^ 32 := by
  simp [accumulate]

/-- One more digit on a value below 85^k, for k up to 3, does not wrap and stays below 85^(k+1). -/
theorem accumulate_lt {w : Word} {k : BitVec 3} (d : Digit) (hk : k.toNat ≤ 3) (hw : w.toNat < 85 ^ k.toNat) :
    (accumulate w k d).toNat = w.toNat + d.val * 85 ^ k.toNat ∧ (accumulate w k d).toNat < 85 ^ (k.toNat + 1) := by
  have hd := d.isLt
  have h1 : w.toNat + d.val * 85 ^ k.toNat < 85 ^ (k.toNat + 1) := by
    have : d.val * 85 ^ k.toNat ≤ 84 * 85 ^ k.toNat := Nat.mul_le_mul_right _ (by omega)
    rw [pow_succ]
    omega
  have h2 : 85 ^ (k.toNat + 1) ≤ 85 ^ 4 := Nat.pow_le_pow_right (by decide) (by omega)
  rw [accumulate_toNat, Nat.mod_eq_of_lt (by omega)]
  exact ⟨rfl, h1⟩

end Sys2Proof.Machine
end

