-- ==== Sys2Proof/Laws/PerInstr.lean ====
section
/-! SUPPORT. Per command: the opcode and the operand stand in the command word where 30_encoding.md R60 puts them. -/

namespace Sys2Proof

namespace Laws.EncodeFields

/-- A command's word carries the command's opcode in `OPC` and its operand in `DATA`. -/
def Statement (i : Instr) : Prop := (encode i).opc = i.opc ∧ (encode i).data = i.data

theorem nop : Statement .nop := by simp [Statement, encode]
theorem enc1 (b0 : Byte) : Statement (.enc1 b0) := by simp [Statement, encode]
theorem enc2 (b0 b1 : Byte) : Statement (.enc2 b0 b1) := by simp [Statement, encode]
theorem enc3 (b0 b1 b2 : Byte) : Statement (.enc3 b0 b1 b2) := by simp [Statement, encode]
theorem enc4 (b0 b1 b2 b3 : Byte) : Statement (.enc4 b0 b1 b2 b3) := by simp [Statement, encode]
theorem decChar (c : Byte) : Statement (.decChar c) := by simp [Statement, encode]
theorem decFinal : Statement .decFinal := by simp [Statement, encode]
theorem decClear : Statement .decClear := by simp [Statement, encode]
theorem decRdw : Statement .decRdw := by simp [Statement, encode]
theorem decRdm : Statement .decRdm := by simp [Statement, encode]
theorem lutMem (c : Byte) : Statement (.lutMem c) := by simp [Statement, encode]
theorem lutCode (c : Byte) : Statement (.lutCode c) := by simp [Statement, encode]
theorem lutChar (i : Nat) : Statement (.lutChar i) := by simp [Statement, encode]
theorem lenEnc (n : Int) : Statement (.lenEnc n) := by simp [Statement, encode]
theorem lenDec (n : Int) : Statement (.lenDec n) := by simp [Statement, encode]

end Laws.EncodeFields
end Sys2Proof
end

