-- ==== Sys2Proof/Laws/Step.lean ====
section
/-! SUPPORT. What a step can do, once, and how a run unfolds. -/

namespace Sys2Proof.Machine

variable (s : State)

@[simp] theorem takeInput_nil (h : s.inputs = []) : s.takeInput = none := by simp [State.takeInput, h]

@[simp] theorem takeInput_withInputs_cons (p : PortInput) (ps : List PortInput) :
    (s.withInputs (p :: ps)).takeInput = some (p, s.withInputs ps) := rfl

/-- What a step can do: wait, reset, see no command, or run a command word. -/
theorem step_cases :
    (s.inputs = [] ∧ step s = .next s.idle) ∨
    (∃ p ps, s.inputs = p :: ps ∧ p.rst = true ∧ step s = .next (s.withInputs ps).applyReset) ∨
    (∃ p ps, s.inputs = p :: ps ∧ p.rst = false ∧ p.cmdValid = false ∧ step s = .next (s.withInputs ps).idle) ∨
    (∃ p ps, s.inputs = p :: ps ∧ p.rst = false ∧ p.cmdValid = true ∧
      step s = runCommand p.cmdWord (s.withInputs ps)) := by
  unfold step stepOnce State.takeInput
  cases hs : s.inputs with
  | nil => exact .inl ⟨rfl, rfl⟩
  | cons p ps =>
    cases hr : p.rst with
    | true => exact .inr (.inl ⟨p, ps, rfl, hr, by simp [stepPorts, hr, State.withInputs]⟩)
    | false =>
      cases hv : p.cmdValid with
      | false => exact .inr (.inr (.inl ⟨p, ps, rfl, hr, hv, by simp [stepPorts, hr, hv, State.withInputs]⟩))
      | true => exact .inr (.inr (.inr ⟨p, ps, rfl, hr, hv, by simp [stepPorts, hr, hv, State.withInputs]⟩))

/-- A run of no command words only says that nothing more is presented. -/
@[simp] theorem run_nil : run [] s = .next (s.withInputs []) := rfl

/-- Running a command word changes nothing of what the host presents, and does not depend on it. -/
theorem runCommand_presenting {cw : CommandWord} {w : Word} {k : BitVec 3} {r : Response}
    (h : runCommand cw s = .next (s.answered w k r)) (cws : List CommandWord) :
    runCommand cw (s.presenting cws) = .next ((s.answered w k r).presenting cws) := by
  obtain ⟨w', k', r', hd⟩ := runCommand_depends s cw
  have h0 := hd s.inputs s.rsp s.rsps
  rw [show s.rehosted s.inputs s.rsp s.rsps = s from rfl, h] at h0
  simp only [Host.Outcome.next.injEq, State.answered, State.mk.injEq, Option.some.injEq] at h0
  obtain ⟨-, rfl, rfl, -, rfl, -⟩ := h0
  exact hd _ s.rsp s.rsps

/-- A run is its first command and then the run of the others. -/
theorem run_cons {cw : CommandWord} {w : Word} {k : BitVec 3} {r : Response}
    (h : runCommand cw s = .next (s.answered w k r)) (cws : List CommandWord) :
    run (cw :: cws) s = run cws (s.answered w k r) := by
  have hstep : step (s.presenting (cw :: cws)) = runCommand cw (s.presenting cws) := rfl
  simp only [run, List.length_cons, runSteps, hstep, runCommand_presenting s h]

end Sys2Proof.Machine
end

