-- ==== Sys2Proof/Tests/Slice0.lean ====
section
/-! SUPPORT. Tests: the WellFormed smoke, decoding of words written out from 30_encoding.md, one step of each command
with results from 95_test_vectors.md, and a witness for the hypotheses of each statement. -/

namespace Sys2Proof.Tests

open Sys2Proof Sys2Proof.Machine

/-! ## WellFormed refuses an ill-formed command for each check -/

theorem smoke_index_too_large : ¬ (Instr.lutChar (2 ^ 32)).WellFormed := by decide
theorem smoke_length_too_large : ¬ (Instr.lenEnc (2 ^ 31)).WellFormed := by decide
theorem smoke_length_too_small : ¬ (Instr.lenEnc (-2 ^ 31 - 1)).WellFormed := by decide
theorem smoke_dec_length_too_large : ¬ (Instr.lenDec (2 ^ 31)).WellFormed := by decide
theorem smoke_dec_length_too_small : ¬ (Instr.lenDec (-2 ^ 31 - 1)).WellFormed := by decide

/-! ## Decoding: words written out bit by bit, `DATA` then `OPC` (30_encoding.md R60, R62, R64) -/

theorem test_decode_nop : decode 0b1111111111111111111111111111111100000000#40 = .command .nop := by decide
theorem test_decode_enc1 : decode 0b1111111111111111111111110101010100010000#40 = .command (.enc1 0x55) := by decide
theorem test_decode_enc2 : decode 0b1111111111111111000000010000000000010001#40 = .command (.enc2 0x00 0x01) := by
  decide
theorem test_decode_enc3 :
    decode 0b1010101001101110011000010100110100010010#40 = .command (.enc3 0x4D 0x61 0x6E) := by decide
theorem test_decode_enc4 :
    decode 0b0001001000110100010101100111100000010011#40 = .command (.enc4 0x78 0x56 0x34 0x12) := by decide
theorem test_decode_decChar : decode 0b0000000000000000000000010011000000100000#40 = .command (.decChar 0x30) := by
  decide
theorem test_decode_decFinal : decode 0b1000000000000000000000000000000100100001#40 = .command .decFinal := by decide
theorem test_decode_decClear : decode 0b1000000000000000000000000000000100100010#40 = .command .decClear := by decide
theorem test_decode_decRdw : decode 0b1000000000000000000000000000000100100011#40 = .command .decRdw := by decide
theorem test_decode_decRdm : decode 0b1000000000000000000000000000000100100100#40 = .command .decRdm := by decide
theorem test_decode_lutMem : decode 0b0000000000000000000000010011000000110000#40 = .command (.lutMem 0x30) := by
  decide
theorem test_decode_lutCode : decode 0b0000000000000000000000000010000000110001#40 = .command (.lutCode 0x20) := by
  decide
theorem test_decode_lutChar : decode 0b0000000000000000000000010000000000110010#40 = .command (.lutChar 256) := by
  decide
theorem test_decode_lenEnc : decode 0b1000000000000000000000000000000001000000#40 = .command (.lenEnc (-2147483648)) := by
  decide
theorem test_decode_lenDec : decode 0b0111111111111111111111111111111101000001#40 = .command (.lenDec 2147483647) := by
  decide
theorem test_decode_reserved : decode 0b0000000000000000000000000000000001000010#40 = .reserved 0x42 := by decide
theorem test_decodeTableWord : decodeTableWord 40 0x0000000740 = some (.lenEnc 7) := by decide
theorem test_withFetchWord_runs : step (State.reset.withFetchWord 40 0x0000000740) = exec (.lenEnc 7) State.reset := rfl

/-! ## One step of each command (95_test_vectors.md), with the sample alphabet -/

/-- The block after reset with the sample alphabet, a group of value `w` and `k` digits open. -/
def open_ (w : Word) (k : BitVec 3) : State := { State.resetWith Config.sampleAlphabet with word := w, m := k }

/-- What one issued command word leaves: the response, `WORD` and `M`. -/
def after (cw : CommandWord) (s : State) : Option (Response × Word × BitVec 3) :=
  match step (s.presentCommand cw) with
  | .next t => t.rsp.map fun r => (r, t.word, t.m)
  | .fault _ => none
  | .refused _ => none

/-- The character of a digit in the sample alphabet, as `A[i]` in 95_test_vectors.md. -/
def charA (d : Digit) : Byte := Config.sampleAlphabet.char d

/-- The command word `DEC.CHAR A[i]`. -/
def feedA (d : Digit) : CommandWord := encode (.decChar (charA d))

-- 3.5
theorem test_nop : after 0xFFFFFFFF00 (open_ 0x1C38 2) = some (⟨.ok, 0, 0, 0⟩, 0x1C38, 2) := by decide
-- 3.5 and P4 row 3
theorem test_reserved : after 0x00000000FF (open_ 0x1C38 2) = some (⟨.illegal, 0, 0, 0⟩, 0x1C38, 2) := by decide
-- 3.3: digits 0 3; ignored bits
theorem test_enc1 : after 0xFFFFFFFF10 (open_ 0x1C38 2) =
    some (⟨.ok, 2, BitVec.ofNat 40 (leValue [charA 0, charA 3]), 0⟩, 0x1C38, 2) := by decide
theorem test_enc1_zero : after 0x0000000010 (open_ 0 0) = some (⟨.ok, 2, 0x3030, 0⟩, 0, 0) := by decide
-- 3.3: digits 1 3 0
theorem test_enc2 : after 0x0000010011 (open_ 0 0) =
    some (⟨.ok, 3, BitVec.ofNat 40 (leValue [charA 1, charA 3, charA 0]), 0⟩, 0, 0) := by decide
-- 3.3: digits 29 19 66 11, with ignored bits
theorem test_enc3 : after 0xAA6E614D12 (open_ 0 0) =
    some (⟨.ok, 4, BitVec.ofNat 40 (leValue [charA 29, charA 19, charA 66, charA 11]), 0⟩, 0, 0) := by decide
-- 3.3: digits 0 12 54 23 82 and 21 55 39 57 38
theorem test_enc4 : after 0xFFFFFFFF13 (open_ 0 0) =
    some (⟨.ok, 5, BitVec.ofNat 40 (leValue [charA 0, charA 12, charA 54, charA 23, charA 82]), 0⟩, 0, 0) := by decide
theorem test_enc4_order : after 0x7856341213 (open_ 0 0) =
    some (⟨.ok, 5, BitVec.ofNat 40 (leValue [charA 21, charA 55, charA 39, charA 57, charA 38]), 0⟩, 0, 0) := by
  decide
-- DEC1 row 4 and DEC2 row 4
theorem test_decChar_flush : after (feedA 82) (open_ 0x00DD7F4D 4) = some (⟨.ok, 4, 0xFFFFFFFF, 0⟩, 0, 0) := by
  decide +kernel
theorem test_decChar_flush_wraps : after (feedA 84) (open_ 0x031C84B0 4) = some (⟨.ok, 4, 0x08780EC4, 0⟩, 0, 0) := by
  decide +kernel
-- DEC3 row 21 before and row 22: B0 84 1C; rows 4 and 5: 38
theorem test_decFinal_three : after 0x0000000021 (open_ 0x031C84B0 4) = some (⟨.ok, 3, 0x1C84B0, 0⟩, 0, 0) := by
  decide
theorem test_decFinal_lone : after 0x0000000021 (open_ 5 1) = some (⟨.ok, 0, 0, 0⟩, 0, 0) := by decide
-- 43_decoder.md R145's example
theorem test_decClear : after 0x0000000022 (open_ 7224 2) = some (⟨.ok, 0, 0, 0⟩, 0, 0) := by decide
-- DEC3 row 21, P2 row 5
theorem test_decRdw : after 0x0000000023 (open_ 0x031C84B0 4) = some (⟨.ok, 0, 0, 0x031C84B0⟩, 0x031C84B0, 4) := by
  decide
theorem test_decRdm : after 0x0000000024 (open_ 0x000937FC 3) = some (⟨.ok, 0, 0, 3⟩, 0x000937FC, 3) := by decide
-- 3.1
theorem test_lutMem : after 0x0000013030 (open_ 0 0) = some (⟨.ok, 0, 0, 1⟩, 0, 0) := by decide
theorem test_lutMem_space : after 0x0000002030 (open_ 0 0) = some (⟨.ok, 0, 0, 0⟩, 0, 0) := by decide +kernel
theorem test_lutCode_last : after (encode (.lutCode (charA 84))) (open_ 0 0) = some (⟨.ok, 0, 0, 0x54⟩, 0, 0) := by
  decide +kernel
theorem test_lutCode_absent : after 0x0000008031 (open_ 0 0) = some (⟨.ok, 0, 0, 0xFFFFFFFF⟩, 0, 0) := by
  decide +kernel
theorem test_lutChar_zero : after 0x0000000032 (open_ 0 0) = some (⟨.ok, 0, 0, 0x30⟩, 0, 0) := by decide
theorem test_lutChar_not_truncated : after 0x0000010032 (open_ 0 0) = some (⟨.badIndex, 0, 0, 0⟩, 0, 0) := by decide
-- 3.2
theorem test_lenEnc_largest : after 0x6666666540 (open_ 0 0) = some (⟨.ok, 0, 0, 0x7FFFFFFF⟩, 0, 0) := by decide
theorem test_lenEnc_overflow : after 0x6666666640 (open_ 0 0) = some (⟨.overflow, 0, 0, 0xFFFFFFFF⟩, 0, 0) := by
  decide
theorem test_lenDec_largest : after 0x7FFFFFFF41 (open_ 0 0) = some (⟨.ok, 0, 0, 0x66666665⟩, 0, 0) := by decide
theorem test_lenDec_negative : after 0x8000000041 (open_ 0 0) = some (⟨.invalidLength, 0, 0, 0xFFFFFFFF⟩, 0, 0) := by
  decide
-- 30_encoding.md R69
theorem test_status_codes : (Status.ok.code, Status.illegal.code, Status.invalidLength.code, Status.overflow.code,
    Status.badIndex.code) = (0, 1, 2, 3, 4) := by decide

/-! ## The assembler (95_test_vectors.md P1) -/

theorem test_assemble_encBuf : assemble Config.sampleAlphabet
    ⟨.encBuf, [.hex 2 0x4D, .hex 2 0x61, .hex 2 0x6E, .hex 2 0x20, .hex 2 0x00, .hex 2 0x01]⟩ =
      some [.enc4 0x4D 0x61 0x6E 0x20, .enc2 0x00 0x01] := by decide
theorem test_assembleText_lenEnc : assembleText Config.sampleAlphabet
    ['L', 'E', 'N', '.', 'E', 'N', 'C', ' ', '-', '1'] = some [0xFFFFFFFF40] := by decide
-- 3.1, the row with a hex index
theorem test_assembleText_lutChar_hex : assembleText Config.sampleAlphabet
    ['L', 'U', 'T', '.', 'C', 'H', 'A', 'R', ' ', '0', 'x', 'F', 'F', 'F', 'F', 'F', 'F', 'F', 'F'] =
      some [0xFFFFFFFF32] := by decide
theorem test_assembleText_decStr : assembleText Config.sampleAlphabet
    ['D', 'E', 'C', '.', 'S', 'T', 'R', ' ', 'A', '[', '0', ']', ',', ' ', '\'', '0', '\'', ',', ' ', '0', 'x', '2', '0'] =
      some [0x0000003020, 0x0000003020, 0x0000002020, 0x0000000021] := by decide

/-! ## Witnesses: concrete states and operands that meet the hypotheses of the statements -/

theorem sample_valid : Config.sampleAlphabet.Valid := by decide +kernel

theorem witness_NoCommandNoResponse : State.reset.inputs = [] := rfl

theorem witness_StepRunsDecodedCommand : decode 0x0000003020#40 = .command (.decChar 0x30) := by decide

theorem witness_ReservedOpcodesAreIllegal :
    (∀ o ∈ [0x01, 0x0F, 0x14, 0x1F, 0x25, 0x2F, 0x33, 0x3F, 0x42, 0xFF], ReservedOpc o) ∧
    ∀ o ∈ [0x00, 0x10, 0x13, 0x20, 0x24, 0x30, 0x32, 0x40, 0x41], ¬ ReservedOpc o := by decide

theorem witness_EncoderOpcodeCarriesSize :
    (CommandWord.opc 0x0000000010#40) &&& 0xFC = 0x10 ∧ (CommandWord.opc 0x0000000013#40) &&& 0xFC = 0x10 := by decide

theorem witness_IgnoredBitsChangeNothing :
    (CommandWord.opc 0xFFFFFF0010#40) = (CommandWord.opc 0x0000000010#40) ∧
    (CommandWord.data 0xFFFFFF0010#40) &&& readMask 0x10 = (CommandWord.data 0x0000000010#40) &&& readMask 0x10 := by
  decide

theorem witness_DecodeOfEncode : (Instr.lutChar (2 ^ 32 - 1)).WellFormed ∧ (Instr.lenEnc (2 ^ 31 - 1)).WellFormed ∧
    (Instr.lenDec (-2 ^ 31)).WellFormed ∧ Instr.nop.WellFormed := by decide

theorem witness_EncodeOfDecode : decode 0xFFFFFFFF32#40 = .command (.lutChar (2 ^ 32 - 1)) := by decide

theorem witness_WrittenLinesReadBack : AsmOperand.Writable (.hex 2 0xFF) ∧ AsmOperand.Writable (.hex 8 0xFFFFFFFF) := by
  unfold AsmOperand.Writable; decide

theorem witness_OperandsAssembleToCommands :
    [AsmOperand.hex 2 0x4D, .alphabetAt 0].map (operandByte Config.sampleAlphabet) = [some 0x4D, some 0x30] ∧
    ((0xFFFFFFFF : Nat) < 2 ^ 32) := by decide

theorem witness_PseudoInstructionsExpand :
    [AsmOperand.hex 2 0x20, .quotedZero].map (operandByte Config.sampleAlphabet) = [0x20, 0x30].map some := by decide

theorem witness_AssembledWordsDecode :
    assembleText Config.sampleAlphabet ['N', 'O', 'P'] = some [0x0000000000] := by decide

theorem witness_EncodedDigitsSpellBlock :
    encBuf [0xFF] = [.enc1 0xFF] ∧ encBuf [1, 2, 3, 4] = [.enc4 1 2 3 4] := by decide

theorem witness_LutMemAnswersMembership :
    (∃ d, Config.sampleAlphabet.char d = 0x30) ∧ ∀ d, Config.sampleAlphabet.char d ≠ 0x20 := by decide +kernel

theorem witness_LutCodeAnswersIndex : (open_ 0 0).alphabet.Valid ∧ ∀ d, (open_ 0 0).alphabet.char d ≠ 0x5C := by
  decide +kernel

theorem witness_LutCharAnswersEntry : (85 : Nat) ≥ 85 := by decide

theorem witness_CodeTableInvertsAlphabet : Config.sampleAlphabet.Valid := sample_valid

theorem witness_MembersOfEveryAlphabet : Config.sampleAlphabet.Valid ∧ (0x20#8).toNat ≤ 0x20 ∧ 0x7F ≤ (0x7F#8).toNat :=
  ⟨sample_valid, by decide, by decide⟩

theorem witness_LenEncAnswers : (-1 : Int) < 0 ∧ ((0 : Int) ≤ 1717986917 ∧ (1717986917 : Int) ≤ 1717986917) ∧
    (0 : Int) ≤ 0 ∧ (1717986917 : Int) < 1717986918 := by decide

theorem witness_LenDecAnswers : (-1 : Int) < 0 ∧ (0 : Int) ≤ 0 := by decide

theorem witness_DecCharFeedsDecoder : (open_ 0x1C38 2).alphabet.Valid ∧ (open_ 0x1C38 2).m.toNat < 4 ∧
    (open_ 0x031C84B0 4).m.toNat = 4 ∧ ∀ d, (open_ 0 0).alphabet.char d ≠ 0x0A := by decide +kernel

theorem witness_DecoderSpellsGroup : (open_ 0 0).alphabet.Valid ∧ (open_ 0 0).StreamMayBegin ∧
    ([84, 84, 84, 84] : List Digit).length ≤ 4 ∧ ([84, 84, 84, 84, 84] : List Digit).length = 5 := by decide +kernel

theorem witness_DecFinalEmitsTrailingBytes : (open_ 0x031C84B0 4).m.toNat ≤ 4 ∧ (open_ 0 0).m.toNat ≤ 4 := by decide

theorem witness_DecoderRegistersReadBack : Reachable State.reset ∧
    ((open_ 0x031C84B0 4).alphabet.member 0x30 = true ∧ (open_ 0x031C84B0 4).m.toNat = 4 ∧
      ∃ t, exec (.decChar 0x30) (open_ 0x031C84B0 4) = .next t) ∧
    (∃ t, exec .decFinal (open_ 5 1) = .next t) ∧ (∃ t, exec .decClear (open_ 5 1) = .next t) ∧
    (∃ t, step ((open_ 5 1).withInputs [⟨true, false, 0⟩]) = .next t) ∧
    (open_ 5 1).alphabet.member 0x20 = false ∧ ∃ t, exec (.decChar 0x20) (open_ 5 1) = .next t :=
  ⟨.reset, ⟨by decide, by decide, _, rfl⟩, ⟨_, rfl⟩, ⟨_, rfl⟩, ⟨_, rfl⟩, by decide +kernel, _, rfl⟩

theorem witness_DecodedStreamHasDecodedLength : (open_ 0 0).StreamMayBegin := by decide

/-- What a run from the sample state emits. -/
def itemsOf (cws : List CommandWord) : List Byte :=
  match run cws (open_ 0 0) with
  | .next t => newItems (open_ 0 0) t
  | .fault _ => []
  | .refused _ => []

theorem witness_DecodeOfNoisyEncodingIsIdentity : (open_ 0 0).alphabet.Valid ∧ (open_ 0 0).StreamMayBegin ∧
    ([0x22, charA 0, 0x20, charA 3, 0x0A] : List Byte).filter Config.sampleAlphabet.member =
      itemsOf (assembleWords (encBuf [0xFF])) := by decide +kernel

theorem witness_EveryStepKeepsInvariant : (open_ 0x1C38 2).Inv ∧ ∃ t, step (open_ 0x1C38 2) = .next t :=
  ⟨⟨by decide, sample_valid⟩, _, rfl⟩

theorem witness_OnlyDecoderCommandsWriteState : (∃ t, exec .nop (open_ 0x1C38 2) = .next t) ∧
    (∃ t, exec (.decChar 0x20) (open_ 0x1C38 2) = .next t) ∧ (open_ 0x1C38 2).alphabet.member 0x20 = false :=
  ⟨⟨_, rfl⟩, ⟨_, rfl⟩, by decide +kernel⟩

theorem witness_ErrorsWriteNoState : ∃ t, runCommand 0x0000005532 (open_ 0x1C38 2) = .next t ∧
    t.rsp = some ⟨.badIndex, 0, 0, 0⟩ ∧ Status.badIndex ≠ .ok := ⟨_, rfl, rfl, by decide⟩

theorem witness_NoStatusIsSticky : ∃ t, runCommand 0x00000000FF (open_ 0x1C38 2) = .next t := ⟨_, rfl⟩

theorem witness_UnsetResponseFieldsAreZero : (open_ 0x1C38 2).m.toNat ≤ 4 ∧
    ∃ t, runCommand 0x0000000023 (open_ 0x1C38 2) = .next t ∧ t.rsp = some ⟨.ok, 0, 0, 0x1C38⟩ :=
  ⟨by decide, _, rfl, rfl⟩

theorem witness_StatelessUnitsArePure : (Instr.lenEnc 7).codecUnit = .length ∧
    (open_ 0x1C38 2).alphabet = (open_ 0 0).alphabet ∧ (∃ t, exec (.lenEnc 7) (open_ 0x1C38 2) = .next t) ∧
    ∃ t, exec (.lenEnc 7) (open_ 0 0) = .next t := ⟨rfl, rfl, ⟨_, rfl⟩, ⟨_, rfl⟩⟩

theorem witness_CanonicalGroupsLoseNothing : (open_ 0 0).StreamMayBegin ∧
    CanonicalGroup (memberDigits Config.sampleAlphabet [0x22, charA 0, 0x20, charA 3]) := by decide +kernel

theorem witness_EveryCommandAnswersOnce : (open_ 7 1).alphabet = ((open_ 7 1).withInputs [⟨true, true, 0⟩]).alphabet ∧
    (open_ 7 1).word = ((open_ 7 1).withInputs []).word ∧ (open_ 7 1).m = ((open_ 7 1).withInputs []).m :=
  ⟨rfl, rfl, rfl⟩

theorem witness_AssembledProgramsGiveNoIllegal : (open_ 0 0).NoIllegal ∧ (∀ i ∈ decStr [0x20], i.WellFormed) ∧
    ∃ t, exec .nop (open_ 0 0) = .next t ∧ t.rsp = some ⟨.ok, 0, 0, 0⟩ := ⟨by decide, by decide, _, rfl, rfl⟩

end Sys2Proof.Tests
end

/-! PROOFS of the state family (10_state.md): what a command reads of the state (R26, R30) and what reset writes (R32). -/

namespace Sys2Proof.Machine

/-! ## No command reads an earlier response -/

/-- Settles O40: the response port and the response list are among what `runCommand_depends` says a command word does
not read. -/
theorem noStatusIsSticky : Obligations.NoStatusIsSticky := by
  intro s t cw o os ht
  obtain ⟨w, m, r, h⟩ := runCommand_depends s cw
  have hs : runCommand cw s = .next (s.answered w m r) := h s.inputs s.rsp s.rsps
  obtain rfl : s.answered w m r = t := Host.Outcome.next.inj (hs.symm.trans ht)
  exact ⟨(s.rehosted s.inputs o os).answered w m r, h s.inputs o os, rfl, rfl, rfl⟩

/-! ## The stateless units -/

/-- `f` is pure for the table `a`: it answers one and the same response in every state with that table, and writes no
state (10_state.md R30). -/
def AnswersPurely (a : Alphabet) (f : State → Host.Outcome State Fault Refusal) : Prop :=
  ∃ r, ∀ s : State, s.alphabet = a → f s = .next (s.answered s.word s.m r)

/-- Completing with a response computed from the table alone is pure. -/
theorem answersPurely_complete (a : Alphabet) (g : Alphabet → Response) :
    AnswersPurely a fun s => complete (g s.alphabet) s :=
  ⟨g a, fun s hs => by simp only [complete_eq, hs]⟩

theorem answersPurely_lengthResponse (a : Alphabet) (st : Status) (v : Nat) :
    AnswersPurely a (lengthResponse st v) := by
  cases st <;> exact ⟨_, fun _ _ => rfl⟩

theorem answersPurely_execLutChar (a : Alphabet) (i : Nat) : AnswersPurely a (execLutChar i) := by
  unfold execLutChar
  split
  case isTrue h => exact answersPurely_complete a fun b => Response.value (zext32 (b.char ⟨i, h⟩))
  case isFalse => exact ⟨_, fun s _ => raise_eq s (lutCharStatus i) 0⟩

/-- Every command of the encoder, the alphabet_lut and the length unit is pure. -/
theorem answersPurely_exec (a : Alphabet) {i : Instr}
    (hi : i.codecUnit = .encoder ∨ i.codecUnit = .alphabetLut ∨ i.codecUnit = .length) :
    AnswersPurely a (exec i) := by
  have block (bs : List Byte) : AnswersPurely a (encodeBlock bs) :=
    answersPurely_complete a fun b => Response.items (blockChars b bs)
  cases i with
  | enc1 b0 => exact block [b0]
  | enc2 b0 b1 => exact block [b0, b1]
  | enc3 b0 b1 b2 => exact block [b0, b1, b2]
  | enc4 b0 b1 b2 b3 => exact block [b0, b1, b2, b3]
  | lutMem c => exact answersPurely_complete a fun b => Response.value (if b.member c then 1 else 0)
  | lutCode c => exact answersPurely_complete a fun b => Response.value (codeValue (b.code c))
  | lutChar i => exact answersPurely_execLutChar a i
  | lenEnc n => exact answersPurely_lengthResponse a (lenEncStatus n) (elen n.toNat)
  | lenDec n => exact answersPurely_lengthResponse a (lenDecStatus n) (dlen n.toNat)
  | nop | decChar | decFinal | decClear | decRdw | decRdm => simp [Instr.codecUnit] at hi

/-- Settles O43: both states answer the one response that `answersPurely_exec` gives for their common table. -/
theorem statelessUnitsArePure : Obligations.StatelessUnitsArePure := by
  intro s s' t t' i hi ha ht ht'
  obtain ⟨r, h⟩ := answersPurely_exec s'.alphabet hi
  obtain rfl : s.answered s.word s.m r = t := Host.Outcome.next.inj ((h s ha).symm.trans ht)
  obtain rfl : s'.answered s'.word s'.m r = t' := Host.Outcome.next.inj ((h s' rfl).symm.trans ht')
  exact ⟨rfl, rfl, rfl⟩

/-! ## Reset -/

/-- 00_scope.md R9 can be met. Proved here so that no proof rests on the test file. -/
theorem sampleAlphabet_valid : Config.sampleAlphabet.Valid := by decide +kernel

/-- `ALPHABET` meets 00_scope.md R9, whatever the builder of the block chose. -/
theorem alphabet_valid : Config.alphabet.Valid := by
  unfold Config.alphabet
  split
  case isTrue h => exact h
  case isFalse => exact sampleAlphabet_valid

/-- Settles O1: the reset state holds the values R32 names, and `applyReset` writes `WORD` and `M` but not the forward
table, from which both lookups are computed. -/
theorem resetClearsDecoderKeepsTables : Obligations.ResetClearsDecoderKeepsTables :=
  ⟨rfl, rfl, rfl, alphabet_valid, fun s =>
    ⟨s.applyReset_word, s.applyReset_m, s.applyReset_alphabet,
      fun d => by rw [State.applyReset_alphabet], fun c => by rw [State.applyReset_alphabet]⟩⟩

end Sys2Proof.Machine

/-! PROOFS of the encoding family (30_encoding.md): the opcode map (R62, R63, R66), the bits of `DATA` a command reads
(R64, R65), the one response of each command word (R68, R71), and the pseudo-instructions (R73). -/

namespace Sys2Proof.Machine

/-! ## The opcode map -/

theorem decode_eq_command {cw : CommandWord} {i : Instr} :
    decode cw = .command i ↔ decodeFields cw.opc cw.data = some i := by
  cases h : decodeFields cw.opc cw.data <;> simp [decode, h]

theorem decode_eq_reserved {cw : CommandWord} {o : Byte} :
    decode cw = .reserved o ↔ decodeFields cw.opc cw.data = none ∧ cw.opc = o := by
  cases h : decodeFields cw.opc cw.data <;> simp [decode, h]

/-- The decoder knows an opcode exactly when 30_encoding.md R66 does not reserve it. -/
theorem decodeFields_eq_none {opc : Byte} {data : Word} : decodeFields opc data = none ↔ ReservedOpc opc.toNat := by
  have hlt := opc.isLt
  unfold decodeFields
  split
  case h_16 => grind
  all_goals simp [ReservedOpc, *]

theorem opc_of_decodeFields {opc : Byte} {data : Word} {i : Instr} (h : decodeFields opc data = some i) :
    i.opc = opc := by
  apply BitVec.eq_of_toNat_eq
  unfold decodeFields at h
  split at h
  case h_16 => cases h
  all_goals cases h; exact Eq.symm ‹_›

/-- A decoded command has the opcode of its word (30_encoding.md R62). -/
theorem opc_of_decode {cw : CommandWord} {i : Instr} (h : decode cw = .command i) : i.opc = cw.opc :=
  opc_of_decodeFields (decode_eq_command.1 h)

theorem decode_of_reservedOpc {cw : CommandWord} (h : ReservedOpc cw.opc.toNat) : decode cw = .reserved cw.opc :=
  decode_eq_reserved.2 ⟨decodeFields_eq_none.2 h, rfl⟩

theorem exists_decode_of_not_reservedOpc {cw : CommandWord} (h : ¬ ReservedOpc cw.opc.toNat) :
    ∃ i, decode cw = .command i := by
  obtain ⟨i, hi⟩ := Option.ne_none_iff_exists'.1 fun hnone => h (decodeFields_eq_none.1 hnone)
  exact ⟨i, decode_eq_command.2 hi⟩

/-- The encoder's commands are those whose opcode matches 0x10 under the mask of 30_encoding.md R63. -/
theorem codecUnit_eq_encoder {i : Instr} : i.codecUnit = .encoder ↔ i.opc &&& 0xFC = 0x10 := by
  cases i <;> simp [Instr.codecUnit, Instr.opc]

theorem not_reservedOpc_of_encoder : ∀ opc : Byte, opc &&& 0xFC = 0x10 → ¬ ReservedOpc opc.toNat := by
  decide

/-- Settles O7: the opcode of a decoded command is its word's, so `codecUnit_eq_encoder` speaks of the word, and the
two low bits of the opcode tell the four commands of the encoder apart. -/
theorem encoderOpcodeCarriesSize : Obligations.EncoderOpcodeCarriesSize := by
  intro cw
  have decodes (hopc : cw.opc &&& 0xFC = 0x10) : ∃ i, decode cw = .command i ∧ i.codecUnit = .encoder := by
    obtain ⟨i, hi⟩ := exists_decode_of_not_reservedOpc (not_reservedOpc_of_encoder cw.opc hopc)
    exact ⟨i, hi, by rwa [codecUnit_eq_encoder, opc_of_decode hi]⟩
  refine ⟨⟨decodes, ?_⟩, fun hopc => ?_⟩
  · rintro ⟨i, hi, hunit⟩
    rwa [codecUnit_eq_encoder, opc_of_decode hi] at hunit
  · obtain ⟨i, hi, hunit⟩ := decodes hopc
    rw [← opc_of_decode hi]
    cases i with
    | enc1 | enc2 | enc3 | enc4 => simp [Instr.opc, hi]
    | _ => cases hunit

/-! ## Ignored bits -/

/-- A mask that keeps all of byte j keeps byte j. -/
theorem dataByte_and {data mask : Word} {j : Nat} (h : dataByte mask j = BitVec.allOnes 8) :
    dataByte (data &&& mask) j = dataByte data j := by
  unfold dataByte at *
  rw [BitVec.extractLsb'_and, h, BitVec.and_allOnes]

/-- The decoder reads no bit of `DATA` outside the mask of the opcode (30_encoding.md R64). -/
theorem decodeFields_and_readMask (opc : Byte) (data : Word) :
    decodeFields opc (data &&& readMask opc) = decodeFields opc data := by
  have whole : data &&& 0xFFFFFFFF#32 = data := BitVec.and_allOnes
  unfold decodeFields readMask
  split
  all_goals simp (disch := decide) [*, dataByte_and]

/-- Settles O8: both words decode as the word with the ignored bits cleared does. -/
theorem ignoredBitsChangeNothing : Obligations.IgnoredBitsChangeNothing := by
  intro cw cw' hopc hdata
  have hfields : decodeFields cw.opc cw.data = decodeFields cw'.opc cw'.data := by
    rw [← decodeFields_and_readMask cw.opc cw.data, hdata, decodeFields_and_readMask, hopc]
  have hdecode : decode cw = decode cw' := by unfold decode; rw [hfields, hopc]
  exact ⟨hdecode, fun s => by unfold runCommand; rw [hdecode]⟩

/-! ## One response to each command word -/

theorem step_issuing (s : State) (cw : CommandWord) (rest : List PortInput) :
    step (s.issuing cw rest) = runCommand cw (s.withInputs rest) := rfl

theorem runCommand_command {cw : CommandWord} {i : Instr} (h : decode cw = .command i) (s : State) :
    runCommand cw s = exec i s := by
  simp only [runCommand, h]

theorem runCommand_reserved {cw : CommandWord} {o : Byte} (h : decode cw = .reserved o) (s : State) :
    runCommand cw s = .next (s.answered s.word s.m ⟨.illegal, 0, 0, 0⟩) := by
  simp only [runCommand, h, execReserved, raise_eq]

/-- Settles O6: a reserved opcode has no command to decode to, and every other opcode has one. -/
theorem reservedOpcodesAreIllegal : Obligations.ReservedOpcodesAreIllegal := by
  refine ⟨fun cw hres => ?_, fun cw hres => ?_, by decide +kernel⟩
  · have hdec := decode_of_reservedOpc hres
    exact ⟨hdec, fun s rest => (step_issuing s cw rest).trans (runCommand_reserved hdec (s.withInputs rest))⟩
  · obtain ⟨i, hi⟩ := exists_decode_of_not_reservedOpc hres
    exact ⟨i, hi, opc_of_decode hi⟩

/-- Every step of every state gives a next state (30_encoding.md R71). -/
theorem step_total (s : State) : ∃ t, step s = .next t := by
  obtain ⟨-, h⟩ | ⟨p, ps, -, -, h⟩ | ⟨p, ps, -, -, -, h⟩ | ⟨p, ps, -, -, -, h⟩ := step_cases s
  · exact ⟨_, h⟩
  · exact ⟨_, h⟩
  · exact ⟨_, h⟩
  · obtain ⟨w, m, r, hr⟩ := runCommand_answers (s.withInputs ps) p.cmdWord
    exact ⟨_, h.trans hr⟩

/-- States with the same table, `WORD` and `M` differ only in what `State.rehosted` replaces. -/
theorem State.eq_rehosted {s s' : State} (ha : s.alphabet = s'.alphabet) (hw : s.word = s'.word) (hm : s.m = s'.m) :
    s' = s.rehosted s'.inputs s'.rsp s'.rsps := by
  simp only [State.rehosted, ha, hw, hm]

/-- Settles O5: every command word answers once (`runCommand_answers`), and by `runCommand_depends` two states with
the same table, `WORD` and `M` are answered alike. -/
theorem everyCommandAnswersOnce : Obligations.EveryCommandAnswersOnce := by
  refine ⟨fun s cw rest => ?_, step_total, fun i s => exec_answers s i, fun s s' cw ha hw hm => ?_⟩
  · obtain ⟨w, m, r, h⟩ := runCommand_answers (s.withInputs rest) cw
    exact ⟨_, r, (step_issuing s cw rest).trans h, rfl, rfl, rfl⟩
  · obtain ⟨w, m, r, h⟩ := runCommand_depends s cw
    refine ⟨w, m, r, h s.inputs s.rsp s.rsps, ?_⟩
    rw [State.eq_rehosted ha hw hm]
    exact h _ _ _

/-! ## Response fields no rule sets -/

/-- The value of at most five items fits in `OUT`, and their number in `N`, so `OUT` is 0 above its N items. -/
theorem Response.items_fit {bs : List Byte} (h : bs.length ≤ 5) :
    (Response.items bs).n.toNat ≤ 5 ∧ (Response.items bs).out.toNat < 256 ^ (Response.items bs).n.toNat := by
  have hn : (Response.items bs).n.toNat = bs.length := by
    rw [Response.items_n, BitVec.toNat_ofNat]; omega
  have hout : (Response.items bs).out.toNat < 256 ^ bs.length := (Nat.mod_le _ _).trans_lt (leValue_lt bs)
  exact ⟨hn ▸ h, hn ▸ hout⟩

/-- A command that returns items answers with at most five of them, as long as `M` is at most 4 (30_encoding.md R67). -/
theorem exec_of_returnsItems {i : Instr} (hi : returnsItems i = true) {s : State} (hm : s.m.toNat ≤ 4) :
    ∃ w m bs, bs.length ≤ 5 ∧ exec i s = .next (s.answered w m (Response.items bs)) := by
  have block (bs : List Byte) (hbs : bs.length ≤ 4) :
      ∃ w m cs, cs.length ≤ 5 ∧ encodeBlock bs s = .next (s.answered w m (Response.items cs)) :=
    ⟨_, _, _, by rw [blockChars_length]; omega, encodeBlock_eq s bs⟩
  cases i with
  | enc1 b0 => exact block [b0] (by simp)
  | enc2 b0 b1 => exact block [b0, b1] (by simp)
  | enc3 b0 b1 b2 => exact block [b0, b1, b2] (by simp)
  | enc4 b0 b1 b2 b3 => exact block [b0, b1, b2, b3] (by simp)
  | decChar c =>
    cases hc : s.alphabet.code c with
    | none => exact ⟨_, _, [], by simp, execDecChar_none s hc⟩
    | some d =>
      by_cases h4 : s.m.toNat = 4
      · exact ⟨_, _, _, by simp, execDecChar_flush s hc h4⟩
      · exact ⟨_, _, [], by simp, execDecChar_open s hc h4⟩
  | decFinal =>
    refine ⟨_, _, _, ?_, execDecFinal_eq s⟩
    unfold trailingBytes
    split
    · rw [wordBytes_length]; omega
    · simp
  | nop | decClear | decRdw | decRdm | lutMem | lutCode | lutChar | lenEnc | lenDec => cases hi

/-- A command that returns no items answers with `N` and `OUT` 0, and with `VAL` 0 where it does not return `VAL`
either. -/
theorem exec_of_not_returnsItems {i : Instr} (hi : returnsItems i = false) (s : State) :
    ∃ w m st v, exec i s = .next (s.answered w m ⟨st, 0, 0, v⟩) ∧ (returnsValue i = false → v = 0) := by
  have length (st : Status) (n : Nat) :
      ∃ st' v, lengthResponse st n s = .next (s.answered s.word s.m ⟨st', 0, 0, v⟩) := by
    cases st <;> exact ⟨_, _, rfl⟩
  cases i with
  | nop | decClear => exact ⟨_, _, _, _, rfl, fun _ => rfl⟩
  | decRdw | decRdm | lutMem | lutCode => exact ⟨_, _, _, _, rfl, nofun⟩
  | lutChar i =>
    by_cases h : i < 85
    · exact ⟨_, _, _, _, dif_pos h, nofun⟩
    · exact ⟨_, _, _, _, dif_neg h, nofun⟩
  | lenEnc n =>
    obtain ⟨st, v, h⟩ := length (lenEncStatus n) (elen n.toNat)
    exact ⟨_, _, st, v, h, nofun⟩
  | lenDec n =>
    obtain ⟨st, v, h⟩ := length (lenDecStatus n) (dlen n.toNat)
    exact ⟨_, _, st, v, h, nofun⟩
  | enc1 | enc2 | enc3 | enc4 | decChar | decFinal => cases hi

/-- Settles O42: a reserved opcode answers `ILLEGAL` and nothing else, a command that returns items a response made of
at most five of them, and any other command no items. -/
theorem unsetResponseFieldsAreZero : Obligations.UnsetResponseFieldsAreZero := by
  intro s t cw r hm ht hr
  cases hdec : decode cw with
  | reserved o =>
    rw [runCommand_reserved hdec] at ht
    cases ht; cases hr
    simp
  | command i =>
    rw [runCommand_command hdec] at ht
    cases hi : returnsItems i with
    | true =>
      obtain ⟨w, m, bs, hbs, h⟩ := exec_of_returnsItems hi hm
      obtain ⟨hn, hout⟩ := Response.items_fit hbs
      cases h.symm.trans ht; cases hr
      exact ⟨hn, hout, by simp [hi], nofun⟩
    | false =>
      obtain ⟨w, m, st, v, h, hv⟩ := exec_of_not_returnsItems hi s
      cases h.symm.trans ht; cases hr
      simpa [hi] using hv

/-! ## Pseudo-instructions -/

/-- `ENC.BUF` is one `ENC.4` for each four bytes, and then `ENC.BUF` of the fewer than four left over. -/
theorem encBuf_eq_blocks : (bs : List Byte) → encBuf bs =
    ((List.range (bs.length / 4)).map fun q =>
      Instr.enc4 (bs.getD (4 * q) 0) (bs.getD (4 * q + 1) 0) (bs.getD (4 * q + 2) 0) (bs.getD (4 * q + 3) 0)) ++
    encBuf (bs.drop (4 * (bs.length / 4)))
  | b0 :: b1 :: b2 :: b3 :: rest => by
    have hlen : (b0 :: b1 :: b2 :: b3 :: rest).length / 4 = rest.length / 4 + 1 := by
      simp only [List.length_cons]; omega
    rw [hlen, List.range_succ_eq_map, encBuf, encBuf_eq_blocks rest]
    simp [Nat.mul_add, Function.comp_def]
  | [_, _, _] | [_, _] | [_] | [] => by simp

theorem map_operandBytes_eq_some {a : Alphabet} {os : List AsmOperand} {is : List Instr}
    {expand : List Byte → List Instr} :
    (operandBytes a os).map expand = some is ↔
      ∃ bs : List Byte, os.map (operandByte a) = bs.map some ∧ is = expand bs := by
  simp only [Option.map_eq_some_iff, operandBytes_eq_some, @eq_comm _ is]

/-- Settles O49: `encBuf_eq_blocks` for the expansion, its last command read off by how many bytes are left over; and
each pseudo-instruction expands the bytes its operands stand for. -/
theorem pseudoInstructionsExpand : Obligations.PseudoInstructionsExpand := by
  refine ⟨fun bs => ?_, fun a os is =>
    ⟨map_operandBytes_eq_some, map_operandBytes_eq_some, map_operandBytes_eq_some⟩⟩
  rw [encBuf_eq_blocks bs]
  congr 1
  have hlen : (bs.drop (4 * (bs.length / 4))).length < 4 := by rw [List.length_drop]; omega
  match bs.drop (4 * (bs.length / 4)), hlen with
  | [], _ | [_], _ | [_, _], _ | [_, _, _], _ => rfl
  | _ :: _ :: _ :: _ :: rest, h => simp only [List.length_cons] at h; omega

end Sys2Proof.Machine

/-! PROOFS of the alphabet_lut family (40_alphabet_lut.md): the code table inverts the forward table (R81), and what
`LUT.MEM`, `LUT.CODE` and `LUT.CHAR` answer (R82, R83, R84). -/

namespace Sys2Proof

/-! ## The code table -/

/-- A miss is exactly a character that no entry holds, whether or not the table is valid. -/
theorem Alphabet.code_eq_none {a : Alphabet} {c : Byte} : a.code c = none ↔ ∀ d, a.char d ≠ c := by
  refine ⟨char_ne_of_code_none, fun hne => ?_⟩
  cases h : a.code c with
  | none => rfl
  | some d => exact absurd (char_of_code h) (hne d)

/-- The code table finds each entry of a valid table at its own index, because no other index holds the same entry. -/
theorem Alphabet.Valid.code_char {a : Alphabet} (hv : a.Valid) (d : Digit) : a.code (a.char d) = some d := by
  cases h : a.code (a.char d) with
  | none => exact absurd rfl (char_ne_of_code_none h d)
  | some e => rw [hv.char_injective (char_of_code h)]

theorem Alphabet.Valid.code_eq_some {a : Alphabet} (hv : a.Valid) {c : Byte} {d : Digit} :
    a.code c = some d ↔ a.char d = c :=
  ⟨char_of_code, fun h => h ▸ hv.code_char d⟩

theorem Alphabet.member_eq_true {a : Alphabet} {c : Byte} : a.member c = true ↔ ∃ d, a.char d = c := by
  constructor
  · intro h
    obtain ⟨d, hd⟩ := Option.isSome_iff_exists.1 h
    exact ⟨d, char_of_code hd⟩
  · rintro ⟨d, rfl⟩
    exact a.member_char d

end Sys2Proof

namespace Sys2Proof.Machine

/-- Settles O19: the entries of a valid table are pairwise distinct, so a hit of the code table is the entry's index. -/
theorem codeTableInvertsAlphabet : Obligations.CodeTableInvertsAlphabet := fun _ hv =>
  ⟨hv.code_char, fun _ _ => hv.code_eq_some, fun _ => Alphabet.code_eq_none⟩

/-! ## The lookup commands -/

theorem decode_commandWord_of_decodeFields {data : Word} {opc : Byte} {i : Instr}
    (h : decodeFields opc data = some i) : decode (commandWord data opc) = .command i := by
  rw [decode_commandWord, h]

theorem exec_lutMem (s : State) (c : Byte) : exec (.lutMem c) s =
    .next (s.answered s.word s.m (Response.value (if s.alphabet.member c then 1 else 0))) := rfl

theorem exec_lutCode (s : State) (c : Byte) :
    exec (.lutCode c) s = .next (s.answered s.word s.m (Response.value (codeValue (s.alphabet.code c)))) := rfl

theorem exec_lutChar_of_lt (s : State) {i : Nat} (h : i < 85) : exec (.lutChar i) s =
    .next (s.answered s.word s.m (Response.value (zext32 (s.alphabet.char ⟨i, h⟩)))) := by
  simp only [exec, execLutChar, dif_pos h, complete_eq]

theorem exec_lutChar_of_ge (s : State) {i : Nat} (h : i ≥ 85) :
    exec (.lutChar i) s = .next (s.answered s.word s.m ⟨.badIndex, 0, 0, 0⟩) := by
  simp only [exec, execLutChar, dif_neg h.not_gt, lutCharStatus, if_pos h, raise_eq]

/-- Settles O17: `LUT.CODE` reports the code table's entry, the index of a member by `Alphabet.Valid.code_char` and
absent for a byte that no entry holds. -/
theorem lutCodeAnswersIndex : Obligations.LutCodeAnswersIndex := by
  refine ⟨fun _ => decode_commandWord_of_decodeFields rfl, fun s hv => ⟨fun d => ?_, fun c hc => ?_⟩⟩
  · rw [exec_lutCode, hv.code_char]
    rfl
  · rw [exec_lutCode, Alphabet.code_eq_none.2 hc]
    rfl

/-- Settles O16: a byte is a member exactly when some entry holds it (`Alphabet.member_eq_true`). -/
theorem lutMemAnswersMembership : Obligations.LutMemAnswersMembership := by
  refine ⟨fun _ => decode_commandWord_of_decodeFields rfl, fun s c => ⟨fun hc => ?_, fun hc => ?_⟩⟩
  · rw [exec_lutMem, Alphabet.member_eq_true.2 hc]
    rfl
  · rw [exec_lutMem, Alphabet.member_eq_false.2 (Alphabet.code_eq_none.2 hc)]
    rfl

/-- Settles O18: the command's own bound check splits the indices at 85. -/
theorem lutCharAnswersEntry : Obligations.LutCharAnswersEntry := by
  refine ⟨fun _ => decode_commandWord_of_decodeFields rfl, fun s => ⟨fun d => ?_, fun _ => exec_lutChar_of_ge s⟩⟩
  rw [exec_lutChar_of_lt s d.isLt, BitVec.ofNat_toNat]
  rfl

end Sys2Proof.Machine

/-! PROOFS of the length family (41_length.md): the overflow boundary (R102) and the answers of the two commands (R103,
R104). -/

namespace Sys2Proof.Machine

/-! ## The length functions -/

/-- 41_length.md R102: the exact boundary of a representable encoded length. -/
theorem elen_le_lenMax {n : Nat} : elen n ≤ Config.lenMax ↔ n ≤ 1717986917 := by
  unfold elen Config.lenMax
  split <;> omega

/-- 41_length.md R100 on the integers. -/
theorem intCast_elen (n : Nat) :
    (elen n : Int) = 5 * ((n : Int) / 4) + if (n : Int) % 4 = 0 then 0 else 1 + (n : Int) % 4 := by
  unfold elen
  split <;> split <;> omega

/-- 41_length.md R101 on the integers, where the rule's `max` stands for the truncated subtraction of `dlen`. -/
theorem intCast_dlen (n : Nat) : (dlen n : Int) = 4 * ((n : Int) / 5) + max 0 ((n : Int) % 5 - 1) := by
  unfold dlen
  omega

/-! ## The length commands -/

theorem exec_lenEnc_of_neg (s : State) {n : Int} (h : n < 0) :
    exec (.lenEnc n) s = .next (s.answered s.word s.m ⟨.invalidLength, 0, 0, 0xFFFFFFFF⟩) := by
  simp only [exec, execLenEnc, lenEncStatus, if_pos h, lengthResponse, raise_eq]

theorem exec_lenEnc_of_le (s : State) {n : Nat} (h : elen n ≤ Config.lenMax) :
    exec (.lenEnc n) s = .next (s.answered s.word s.m (Response.value (BitVec.ofNat 32 (elen n)))) := by
  simp only [exec, execLenEnc, lenEncStatus, if_neg (Int.natCast_nonneg n).not_gt, Int.toNat_natCast, if_neg h.not_gt,
    lengthResponse, complete_eq]

theorem exec_lenEnc_of_gt (s : State) {n : Nat} (h : elen n > Config.lenMax) :
    exec (.lenEnc n) s = .next (s.answered s.word s.m ⟨.overflow, 0, 0, 0xFFFFFFFF⟩) := by
  simp only [exec, execLenEnc, lenEncStatus, if_neg (Int.natCast_nonneg n).not_gt, Int.toNat_natCast, if_pos h,
    lengthResponse, raise_eq]

theorem exec_lenDec_of_neg (s : State) {n : Int} (h : n < 0) :
    exec (.lenDec n) s = .next (s.answered s.word s.m ⟨.invalidLength, 0, 0, 0xFFFFFFFF⟩) := by
  simp only [exec, execLenDec, lenDecStatus, if_pos h, lengthResponse, raise_eq]

theorem exec_lenDec_natCast (s : State) (n : Nat) :
    exec (.lenDec n) s = .next (s.answered s.word s.m (Response.value (BitVec.ofNat 32 (dlen n)))) := by
  simp only [exec, execLenDec, lenDecStatus, if_neg (Int.natCast_nonneg n).not_gt, Int.toNat_natCast, lengthResponse,
    complete_eq]

/-- Settles O21: the command checks the sign, then compares the exact result with `LEN_MAX`, and `elen_le_lenMax` places
that second check at 1717986917. -/
theorem lenEncAnswers : Obligations.LenEncAnswers := by
  refine ⟨fun _ => decode_commandWord_of_decodeFields rfl, fun s n =>
    ⟨exec_lenEnc_of_neg s, fun ⟨h0, hn⟩ => ?_, fun hn => ?_⟩⟩
  · lift n to Nat using h0
    rw [exec_lenEnc_of_le s (elen_le_lenMax.2 (by omega)), ← intCast_elen, BitVec.ofInt_natCast]
    rfl
  · lift n to Nat using by omega
    exact exec_lenEnc_of_gt s (lt_of_not_ge fun hle => by have := elen_le_lenMax.1 hle; omega)

/-- Settles O22: past the sign check the command reports `dlen` whatever the length, which `intCast_dlen` writes as R101
does. -/
theorem lenDecAnswers : Obligations.LenDecAnswers := by
  refine ⟨fun _ => decode_commandWord_of_decodeFields rfl, fun s n => ⟨exec_lenDec_of_neg s, fun h0 => ?_⟩⟩
  lift n to Nat using h0
  rw [exec_lenDec_natCast, ← intCast_dlen, BitVec.ofInt_natCast]
  rfl

end Sys2Proof.Machine

/-! PROOFS of the encoder family (42_encoder.md): what `ENC.k` answers (R120, R122), and that its digits are the ones
that spell the block value (R121). -/

namespace Sys2Proof.Machine

/-! ## The block value -/

theorem leValue_one (b0 : Byte) : leValue [b0] = b0.toNat := rfl

theorem leValue_two (b0 b1 : Byte) : leValue [b0, b1] = b0.toNat + 256 * b1.toNat := rfl

theorem leValue_three (b0 b1 b2 : Byte) : leValue [b0, b1, b2] = b0.toNat + 256 * b1.toNat + 65536 * b2.toNat := by
  simp only [leValue]; omega

theorem leValue_four (b0 b1 b2 b3 : Byte) :
    leValue [b0, b1, b2, b3] = b0.toNat + 256 * b1.toNat + 65536 * b2.toNat + 16777216 * b3.toNat := by
  simp only [leValue]; omega

/-- The value of a block of k bytes fits in k + 1 base-85 digits (00_scope.md R19). -/
theorem leValue_lt_pow85 {bs : List Byte} (h : bs.length ≤ 4) : leValue bs < 85 ^ (bs.length + 1) :=
  (leValue_lt bs).trans_le (pow256_le_pow85 h)

/-! ## What `ENC.k` answers -/

/-- Character j of a block, past the last one the 0 that `OUT` holds there (20_memory.md R44). -/
theorem blockChars_getD (a : Alphabet) (bs : List Byte) (j : Nat) : (blockChars a bs).getD j 0 =
    if j ≤ bs.length then a.char ⟨leValue bs / 85 ^ j % 85, Nat.mod_lt _ (by decide)⟩ else 0 := by
  split
  case isTrue h =>
    have hj : j < (digits (bs.length + 1) (leValue bs)).length := by rw [digits_length]; omega
    have hdigit : (digits (bs.length + 1) (leValue bs))[j] = ⟨leValue bs / 85 ^ j % 85, Nat.mod_lt _ (by decide)⟩ :=
      Fin.ext (digits_getElem _ _ j hj)
    simp only [blockChars, List.getD_eq_getElem?_getD, List.getElem?_map, List.getElem?_eq_getElem hj, hdigit,
      Option.map_some, Option.getD_some]
  case isFalse h => exact List.getD_eq_default _ _ (by rw [blockChars_length]; omega)

/-- A command that encodes the block `bs` answers as R122 says of its size and its value. -/
theorem encAnswer_of_encodeBlock {s : State} {i : Instr} {bs : List Byte} {v : Nat} (hv : leValue bs = v)
    (hbs : bs.length ≤ 4) (hi : exec i s = encodeBlock bs s) : EncAnswer s i bs.length v := by
  subst hv
  have hlen : (blockChars s.alphabet bs).length = bs.length + 1 := blockChars_length s.alphabet bs
  refine ⟨Response.items (blockChars s.alphabet bs), hi.trans (encodeBlock_eq s bs), rfl, ?_, rfl, fun j => ?_⟩
  · rw [Response.items_n, hlen]
  · rw [Response.item_items _ (by omega), blockChars_getD]

/-- Settles O13: the low k bytes of `DATA` have the value `DATA[8k-1:0]` (`leValue_wordBytes`), and each `ENC.k` encodes
the block of its operands (`encAnswer_of_encodeBlock`). -/
theorem encodeAnswersDigits : Obligations.EncodeAnswersDigits := by
  refine ⟨fun d => ?_, fun s b0 b1 b2 b3 => ?_⟩
  · refine ⟨decode_commandWord_of_decodeFields rfl, decode_commandWord_of_decodeFields rfl,
      decode_commandWord_of_decodeFields rfl, decode_commandWord_of_decodeFields rfl, ?_, ?_, ?_, ?_⟩
    · exact leValue_wordBytes 1 d
    · exact leValue_wordBytes 2 d
    · rw [← leValue_three]
      exact leValue_wordBytes 3 d
    · rw [← leValue_four]
      exact (leValue_wordBytes 4 d).trans (Nat.mod_eq_of_lt d.isLt)
  · exact ⟨encAnswer_of_encodeBlock (leValue_one b0) (by simp) rfl,
      encAnswer_of_encodeBlock (leValue_two b0 b1) (by simp) rfl,
      encAnswer_of_encodeBlock (leValue_three b0 b1 b2) (by simp) rfl,
      encAnswer_of_encodeBlock (leValue_four b0 b1 b2 b3) (by simp) rfl⟩

/-! ## The digits spell the block -/

/-- The one command that `ENC.BUF` makes of a block encodes that block (42_encoder.md R124). -/
theorem exec_of_encBuf_eq_singleton {bs : List Byte} {i : Instr} (hi : encBuf bs = [i]) (hbs : bs.length ≤ 4)
    (s : State) : exec i s = encodeBlock bs s := by
  match bs, hi, hbs with
  | [_], rfl, _ | [_, _], rfl, _ | [_, _, _], rfl, _ | [_, _, _, _], rfl, _ => rfl
  | _ :: _ :: _ :: _ :: _ :: rest, _, hbs => simp only [List.length_cons] at hbs; omega

/-- Settles O14: the block value fits in k + 1 digits (`leValue_lt_pow85`), so the digits spell all of it, and digits
are determined by their number and the value they spell (`digits_digitValue`). -/
theorem encodedDigitsSpellBlock : Obligations.EncodedDigitsSpellBlock := by
  intro s bs i hi hbs
  have hlt : leValue bs < 85 ^ (bs.length + 1) := leValue_lt_pow85 hbs
  have hitems : (Response.items (blockChars s.alphabet bs)).itemList = blockChars s.alphabet bs :=
    Response.itemList_items _ (by rw [blockChars_length]; omega)
  refine ⟨Response.items (blockChars s.alphabet bs), digits (bs.length + 1) (leValue bs),
    (exec_of_encBuf_eq_singleton hi hbs s).trans (encodeBlock_eq s bs), hitems, digits_length _ _, ?_,
    Nat.div_eq_of_lt hlt, fun ds' hlen hval => ?_, fun c hc => ?_⟩
  · rw [digitValue_digits, Nat.mod_eq_of_lt hlt]
  · rw [← hlen, ← hval, digits_digitValue]
  · rw [hitems, blockChars] at hc
    obtain ⟨d, -, rfl⟩ := List.mem_map.1 hc
    exact s.alphabet.member_char d

end Sys2Proof.Machine

/-! PROOFS of the decoder family (43_decoder.md): what `DEC.CHAR`, `DEC.FINAL`, `DEC.CLEAR`, `DEC.RDW` and `DEC.RDM`
answer (R143 to R147), and the decoder's part of the invariant of every reachable state (10_state.md R24). -/

namespace Sys2Proof.Machine

/-! ## The bytes of a word as a response -/

/-- The k low bytes of a word as `OUT` carries them: the word modulo 256^k (20_memory.md R43, R44). -/
theorem Response.items_wordBytes (k : Nat) (w : Word) :
    Response.items (wordBytes k w) = ⟨.ok, BitVec.ofNat 3 k, BitVec.ofNat 40 (w.toNat % 256 ^ k), 0⟩ := by
  simp only [Response.items, Response.plain, wordBytes_length, leValue_wordBytes]

theorem wordBytes_getD (k : Nat) (w : Word) (j : Nat) :
    (wordBytes k w).getD j 0 = if j < k then dataByte w j else 0 := by
  split
  case isTrue h => simp [wordBytes, h]
  case isFalse h => exact List.getD_eq_default _ _ (by rw [wordBytes_length]; omega)

/-! ## `DEC.CHAR` -/

/-- Accumulation modulo 2^32, as one sum of numbers (43_decoder.md R140). -/
theorem accumulate_eq_ofNat (w : Word) (k : BitVec 3) (d : Digit) :
    accumulate w k d = BitVec.ofNat 32 (w.toNat + d.val * 85 ^ k.toNat) :=
  BitVec.eq_of_toNat_eq (by rw [accumulate_toNat, BitVec.toNat_ofNat])

/-- The count of one more digit. -/
theorem ofNat_toNat_succ (k : BitVec 3) : BitVec.ofNat 3 (k.toNat + 1) = k + 1 := by
  rw [BitVec.ofNat_add, BitVec.ofNat_toNat, BitVec.setWidth_eq]
  rfl

/-- Settles O25: the code table separates members from non-members (`Alphabet.code_eq_none`,
`Alphabet.Valid.code_char`), and `M` separates an open group from the digit that completes one. -/
theorem decCharFeedsDecoder : Obligations.DecCharFeedsDecoder := by
  refine ⟨fun _ => decode_commandWord_of_decodeFields rfl, fun s hv =>
    ⟨fun c hc => ?_, fun d => ⟨fun hm => ?_, fun hm => ?_⟩⟩⟩
  · exact execDecChar_none s (Alphabet.code_eq_none.2 hc)
  · rw [← accumulate_eq_ofNat, ← ofNat_toNat_succ]
    exact execDecChar_open s (hv.code_char d) hm.ne
  · have hsum : (accumulate s.word s.m d).toNat % 256 ^ 4 = (s.word.toNat + d.val * 85 ^ 4) % 2 ^ 32 := by
      rw [accumulate_toNat, hm]
      exact Nat.mod_mod _ _
    rw [← hsum]
    have hflush := execDecChar_flush s (hv.code_char d) hm
    rw [Response.items_wordBytes] at hflush
    exact hflush

/-! ## `DEC.FINAL` and `DEC.CLEAR` -/

/-- The M - 1 low bytes in every case: truncated subtraction makes that none for M = 0 and 1. -/
theorem trailingBytes_eq_wordBytes (k : BitVec 3) (w : Word) : trailingBytes k w = wordBytes (k.toNat - 1) w := by
  unfold trailingBytes
  split
  case isTrue => rfl
  case isFalse hk =>
    rw [show k.toNat - 1 = 0 by omega]
    rfl

/-- The number of trailing bytes as `N` holds it, the truncated subtraction written out in 3 bits. -/
theorem ofNat_toNat_pred (k : BitVec 3) : BitVec.ofNat 3 (k.toNat - 1) = if 2 ≤ k.toNat then k - 1 else 0 := by
  split <;> bv_omega

/-- Settles O27: the response carries the M - 1 low bytes of `WORD` as its items (`trailingBytes_eq_wordBytes`). -/
theorem decFinalEmitsTrailingBytes : Obligations.DecFinalEmitsTrailingBytes := by
  refine ⟨fun _ => decode_commandWord_of_decodeFields rfl, fun s hm =>
    ⟨Response.items (wordBytes (s.m.toNat - 1) s.word), ?_, rfl, rfl, ?_, fun j => ?_⟩⟩
  · rw [← trailingBytes_eq_wordBytes]
    exact execDecFinal_eq s
  · rw [Response.items_n, wordBytes_length, ofNat_toNat_pred]
  · rw [Response.item_items _ (by rw [wordBytes_length]; omega), wordBytes_getD]
    exact if_congr (by omega) rfl rfl

/-- Settles O28: a clear answers with every field at its default, whatever group was open (`execDecClear_eq`). -/
theorem decClearDiscardsGroup : Obligations.DecClearDiscardsGroup :=
  ⟨fun _ => decode_commandWord_of_decodeFields rfl, execDecClear_eq⟩

/-! ## The decoder's invariant -/

/-- A cleared decoder meets the invariant: `WORD = 0 < 85^0`. -/
theorem State.StreamMayBegin.decoderInv {s : State} (h : s.StreamMayBegin) : s.DecoderInv := by
  obtain ⟨hm, hw⟩ := h
  simp [State.DecoderInv, hm, hw]

/-- Every command keeps the decoder's invariant: one that writes the decoder either clears it or counts one more digit,
which does not wrap by `accumulate_lt`. -/
theorem exec_decoderInv {s t : State} {i : Instr} (hs : s.DecoderInv) (ht : exec i s = .next t) : t.DecoderInv := by
  obtain ⟨r, h⟩ | ⟨c, d, rfl, hc, -⟩ | ⟨-, h⟩ | ⟨-, h⟩ := exec_cases s i
  · cases h.symm.trans ht
    exact hs
  · by_cases hm : s.m.toNat = 4
    · cases (execDecChar_flush s hc hm).symm.trans ht
      exact State.StreamMayBegin.decoderInv ⟨rfl, rfl⟩
    · cases (execDecChar_open s hc hm).symm.trans ht
      obtain ⟨hm4, hw⟩ := hs
      have hcount : (BitVec.ofNat 3 (s.m.toNat + 1)).toNat = s.m.toNat + 1 := by rw [BitVec.toNat_ofNat]; omega
      have hlt := (accumulate_lt d (by omega) hw).2
      simp only [State.DecoderInv, State.answered_m, State.answered_word, hcount]
      exact ⟨by omega, hlt⟩
  · cases h.symm.trans ht
    exact State.StreamMayBegin.decoderInv ⟨rfl, rfl⟩
  · cases h.symm.trans ht
    exact State.StreamMayBegin.decoderInv ⟨rfl, rfl⟩

theorem runCommand_decoderInv {s t : State} {cw : CommandWord} (hs : s.DecoderInv) (ht : runCommand cw s = .next t) :
    t.DecoderInv := by
  cases hdec : decode cw with
  | command i => exact exec_decoderInv hs ((runCommand_command hdec s).symm.trans ht)
  | reserved o =>
    cases (runCommand_reserved hdec s).symm.trans ht
    exact hs

theorem step_decoderInv {s t : State} (hs : s.DecoderInv) (ht : step s = .next t) : t.DecoderInv := by
  obtain ⟨-, h⟩ | ⟨p, ps, -, -, h⟩ | ⟨p, ps, -, -, -, h⟩ | ⟨p, ps, -, -, -, h⟩ := step_cases s
  · cases h.symm.trans ht
    exact hs
  · cases h.symm.trans ht
    exact State.StreamMayBegin.decoderInv ⟨rfl, rfl⟩
  · cases h.symm.trans ht
    exact hs
  · exact runCommand_decoderInv (s := s.withInputs ps) hs (h.symm.trans ht)

/-- 10_state.md R24, the decoder's part, in every reachable state. -/
theorem Reachable.decoderInv {s : State} (h : Reachable s) : s.DecoderInv := by
  induction h with
  | reset => exact State.StreamMayBegin.decoderInv ⟨rfl, rfl⟩
  | present s ps _ ih => exact ih
  | step s t _ hs ih => exact step_decoderInv ih hs

/-! ## `DEC.RDW` and `DEC.RDM` -/

theorem exec_decRdw (s : State) : exec .decRdw s = .next (s.answered s.word s.m ⟨.ok, 0, 0, s.word⟩) := rfl

theorem exec_decRdm (s : State) :
    exec .decRdm s = .next (s.answered s.word s.m ⟨.ok, 0, 0, BitVec.ofNat 32 s.m.toNat⟩) := by
  rw [BitVec.ofNat_toNat]
  rfl

/-- A step with `rst` set resets, whatever else is presented (70_reset_and_hazards.md R202). -/
theorem step_withInputs_of_rst {p : PortInput} (h : p.rst = true) (s : State) (rest : List PortInput) :
    step (s.withInputs (p :: rest)) = .next (s.withInputs rest).applyReset := by
  simp [step, stepOnce, stepPorts, h]

/-- Each of the ways to clear the decoder leaves `WORD = 0` and `M = 0`. -/
theorem ClearsDecoder.streamMayBegin {s t : State} (h : ClearsDecoder s t) : t.StreamMayBegin := by
  obtain ⟨c, hc, hm, h⟩ | h | h | ⟨p, rest, hp, h⟩ := h
  · obtain ⟨d, hd⟩ := Option.isSome_iff_exists.1 hc
    cases (execDecChar_flush s hd hm).symm.trans h
    exact ⟨rfl, rfl⟩
  · cases (execDecFinal_eq s).symm.trans h
    exact ⟨rfl, rfl⟩
  · cases (execDecClear_eq s).symm.trans h
    exact ⟨rfl, rfl⟩
  · cases (step_withInputs_of_rst hp s rest).symm.trans h
    exact ⟨rfl, rfl⟩

/-- Settles O29: the two reads answer the registers of the state they run in, which are 0 where the decoder was cleared
(`ClearsDecoder.streamMayBegin`), bounded where it is reachable (`Reachable.decoderInv`), and as before after a
non-member. -/
theorem decoderRegistersReadBack : Obligations.DecoderRegistersReadBack := by
  refine ⟨fun _ => ⟨decode_commandWord_of_decodeFields rfl, decode_commandWord_of_decodeFields rfl⟩,
    fun s => ⟨exec_decRdw s, exec_decRdm s⟩, fun s t hclear => ?_, fun s hs => hs.decoderInv.symm,
    fun s t c hc ht => ?_⟩
  · obtain ⟨hm, hw⟩ : t.StreamMayBegin := by
      obtain h | rfl := hclear
      · exact h.streamMayBegin
      · exact ⟨rfl, rfl⟩
    rw [exec_decRdw, exec_decRdm, hm, hw]
    exact ⟨rfl, rfl⟩
  · cases (execDecChar_none s (Alphabet.member_eq_false.1 hc)).symm.trans ht
    exact exec_decRdm _

end Sys2Proof.Machine

/-! PROOFS of the control family (44_control.md): what `NOP` answers and leaves unchanged (R170). -/

namespace Sys2Proof.Machine

/-- `NOP` completes with the plain response, and a completion leaves `WORD` and `M` (44_control.md R170). -/
theorem exec_nop (s : State) : exec .nop s = .next (s.answered s.word s.m Response.plain) :=
  complete_eq s Response.plain

/-- Settles O34: the opcode alone decodes to `NOP`, whatever `DATA` holds, and `exec_nop` gives the whole next state. -/
theorem nopDoesNothing : Obligations.NopDoesNothing :=
  ⟨fun _ => decode_commandWord_of_decodeFields rfl, exec_nop⟩

end Sys2Proof.Machine

/-! PROOFS of the exceptions family (60_exceptions.md): the status of every command word (R188) as its code on `rsp_st`
(30_encoding.md R69). -/

namespace Sys2Proof.Machine

/-! ## The status a command answers -/

/-- The status of a command of the opcode map: only `LEN.ENC`, `LEN.DEC` and `LUT.CHAR` check an operand
(60_exceptions.md R188). -/
def commandStatus : Instr → Status
  | .lenEnc n => lenEncStatus n
  | .lenDec n => lenDecStatus n
  | .lutChar i => lutCharStatus i
  | _ => .ok

/-- A length command answers the status its checks chose. -/
theorem lengthResponse_st (st : Status) (v : Nat) (s : State) :
    ∃ r, lengthResponse st v s = .next (s.answered s.word s.m r) ∧ r.st = st := by
  cases st <;> exact ⟨_, rfl, rfl⟩

/-- `DEC.CHAR` answers `OK`, whether it skips the character, keeps the group open or completes it. -/
theorem execDecChar_st (c : Byte) (s : State) :
    ∃ w k r, execDecChar c s = .next (s.answered w k r) ∧ r.st = .ok := by
  cases hc : s.alphabet.code c with
  | none => exact ⟨_, _, _, execDecChar_none s hc, rfl⟩
  | some d =>
    by_cases hm : s.m.toNat = 4
    · exact ⟨_, _, _, execDecChar_flush s hc hm, rfl⟩
    · exact ⟨_, _, _, execDecChar_open s hc hm, rfl⟩

/-- Every command answers with its `commandStatus`, whatever the state. -/
theorem exec_st (i : Instr) (s : State) :
    ∃ w k r, exec i s = .next (s.answered w k r) ∧ r.st = commandStatus i := by
  cases i with
  | decChar c => exact execDecChar_st c s
  | lutChar i =>
    by_cases h : i < 85
    · exact ⟨_, _, _, exec_lutChar_of_lt s h, (if_neg h.not_ge).symm⟩
    · exact ⟨_, _, _, exec_lutChar_of_ge s (not_lt.1 h), (if_pos (not_lt.1 h)).symm⟩
  | lenEnc n => exact ⟨_, _, lengthResponse_st (lenEncStatus n) (elen n.toNat) s⟩
  | lenDec n => exact ⟨_, _, lengthResponse_st (lenDecStatus n) (dlen n.toNat) s⟩
  | _ => exact ⟨_, _, _, rfl, rfl⟩

/-! ## The status as a code -/

theorem lenEncStatus_code (n : Int) :
    (lenEncStatus n).code = if n < 0 then 2 else if elen n.toNat > 2147483647 then 3 else 0 := by
  unfold lenEncStatus
  rw [apply_ite Status.code, apply_ite Status.code]
  rfl

theorem lenDecStatus_code (n : Int) : (lenDecStatus n).code = if n < 0 then 2 else 0 :=
  apply_ite Status.code _ _ _

theorem lutCharStatus_code (i : Nat) : (lutCharStatus i).code = if i ≥ 85 then 4 else 0 :=
  apply_ite Status.code _ _ _

/-- The checks of an assigned opcode in the order of 60_exceptions.md R188, read off the fields of the command word. -/
theorem commandStatus_code {opc : Byte} {data : Word} {i : Instr} (h : decodeFields opc data = some i) :
    (commandStatus i).code =
      if (opc = 0x40 ∨ opc = 0x41) ∧ data.toInt < 0 then 2
      else if opc = 0x40 ∧ elen data.toInt.toNat > 2147483647 then 3
      else if opc = 0x32 ∧ data.toNat ≥ 85 then 4
      else 0 := by
  obtain rfl := opc_of_decodeFields h
  cases i with
  | lenEnc n =>
    obtain rfl : data.toInt = n := by simpa [decodeFields, Instr.opc] using h
    simp [commandStatus, Instr.opc, lenEncStatus_code]
  | lenDec n =>
    obtain rfl : data.toInt = n := by simpa [decodeFields, Instr.opc] using h
    simp [commandStatus, Instr.opc, lenDecStatus_code]
  | lutChar i =>
    obtain rfl : data.toNat = i := by simpa [decodeFields, Instr.opc] using h
    simp [commandStatus, Instr.opc, lutCharStatus_code]
  | _ => simp [commandStatus, Instr.opc, Status.code]

/-- Settles O41: a reserved opcode answers `ILLEGAL` before any operand is looked at, and a command of the opcode map
its `commandStatus` (`exec_st`), whose code `commandStatus_code` reads off the word. -/
theorem statusFollowsPriority : Obligations.StatusFollowsPriority := by
  intro s cw
  by_cases hres : ReservedOpc cw.opc.toNat
  · exact ⟨_, _, runCommand_reserved (decode_of_reservedOpc hres) s, rfl, (if_pos hres).symm⟩
  · obtain ⟨i, hi⟩ := exists_decode_of_not_reservedOpc hres
    obtain ⟨w, k, r, h, hst⟩ := exec_st i s
    refine ⟨_, r, (runCommand_command hi s).trans h, rfl, ?_⟩
    rw [if_neg hres, ← commandStatus_code (decode_eq_command.1 hi), ← hst]
    rfl

end Sys2Proof.Machine

/-! PROOFS of the reset and hazards family (70_reset_and_hazards.md): what a step with `rst` set gives (R202). -/

namespace Sys2Proof.Machine

/-- Reset after an input was taken writes `WORD` and `M` and clears the response port; the responses given so far and
the forward table stay (70_reset_and_hazards.md R201). -/
theorem State.applyReset_withInputs (s : State) (rest : List PortInput) :
    (s.withInputs rest).applyReset = { s with word := 0, m := 0, inputs := rest, rsp := none } := rfl

/-- Settles O2: `rst` decides the step before `cmd_valid` and the command word are looked at (`step_withInputs_of_rst`),
and `State.applyReset_withInputs` writes its next state out. -/
theorem resetStepDropsCommand : Obligations.ResetStepDropsCommand := by
  intro s valid cw rest
  rw [step_withInputs_of_rst rfl, State.applyReset_withInputs]

end Sys2Proof.Machine

/-! PROOFS of the encoding statements of the whole machine (30_encoding.md): decoding and encoding are inverse to each
other (R60 to R64), and what assembler text and operands stand for (section 6, R72). -/

namespace Sys2Proof.Machine

/-! ## The `DATA` of a command -/

/-- A byte above others, as one number. -/
theorem toNat_append_byte {n : Nat} (x : BitVec n) (b : Byte) : (x ++ b).toNat = b.toNat + 256 * x.toNat := by
  rw [BitVec.toNat_append, ← Nat.shiftLeft_add_eq_or_of_lt b.isLt, Nat.shiftLeft_eq]
  omega

theorem toNat_zext32 (b : Byte) : (zext32 b).toNat = b.toNat := by
  simp only [zext32, BitVec.toNat_setWidth]
  omega

/-- `ENC.k` carries its block value in `DATA` (42_encoder.md R120). -/
theorem toNat_data_enc1 (b0 : Byte) : (Instr.enc1 b0).data.toNat = leValue [b0] := toNat_zext32 b0

theorem toNat_data_enc2 (b0 b1 : Byte) : (Instr.enc2 b0 b1).data.toNat = leValue [b0, b1] := by
  simp only [Instr.data, BitVec.toNat_setWidth, toNat_append_byte, leValue]
  omega

theorem toNat_data_enc3 (b0 b1 b2 : Byte) : (Instr.enc3 b0 b1 b2).data.toNat = leValue [b0, b1, b2] := by
  simp only [Instr.data, BitVec.toNat_setWidth, toNat_append_byte, leValue]
  omega

theorem toNat_data_enc4 (b0 b1 b2 b3 : Byte) : (Instr.enc4 b0 b1 b2 b3).data.toNat = leValue [b0, b1, b2, b3] := by
  simp only [Instr.data, toNat_append_byte, leValue]
  omega

/-- Byte j of a word that holds the value of a byte sequence is its j-th byte. -/
theorem dataByte_eq_getD {w : Word} {bs : List Byte} (h : w.toNat = leValue bs) (j : Nat) :
    dataByte w j = bs.getD j 0 :=
  BitVec.eq_of_toNat_eq (by rw [dataByte_toNat, h, leValue_div_mod])

theorem dataByte_zext32 (b : Byte) : dataByte (zext32 b) 0 = b :=
  dataByte_eq_getD (bs := [b]) (toNat_zext32 b) 0

theorem toNat_ofNat_of_indexFits {i : Nat} (h : indexFits i = true) : (BitVec.ofNat 32 i).toNat = i :=
  (BitVec.toNat_ofNat i 32).trans (Nat.mod_eq_of_lt (of_decide_eq_true h))

theorem toInt_ofInt_of_lengthFits {n : Int} (h : lengthFits n = true) : (BitVec.ofInt 32 n).toInt = n := by
  obtain ⟨hlo, hhi⟩ := Bool.and_eq_true_iff.1 h
  exact BitVec.toInt_ofInt_eq_self (by decide) (of_decide_eq_true hlo) (of_decide_eq_true hhi)

/-! ## Decoding what was encoded -/

/-- The decoder reads a well-formed command back from its opcode and its `DATA`. -/
theorem decodeFields_opc_data {i : Instr} (h : i.WellFormed) : decodeFields i.opc i.data = some i := by
  cases i with
  | nop | decFinal | decClear | decRdw | decRdm => rfl
  | enc1 b0 => exact congrArg (some ∘ Instr.enc1) (dataByte_zext32 b0)
  | enc2 b0 b1 =>
    have hb := dataByte_eq_getD (toNat_data_enc2 b0 b1)
    simp [decodeFields, Instr.opc, hb]
  | enc3 b0 b1 b2 =>
    have hb := dataByte_eq_getD (toNat_data_enc3 b0 b1 b2)
    simp [decodeFields, Instr.opc, hb]
  | enc4 b0 b1 b2 b3 =>
    have hb := dataByte_eq_getD (toNat_data_enc4 b0 b1 b2 b3)
    simp [decodeFields, Instr.opc, hb]
  | decChar c => exact congrArg (some ∘ Instr.decChar) (dataByte_zext32 c)
  | lutMem c => exact congrArg (some ∘ Instr.lutMem) (dataByte_zext32 c)
  | lutCode c => exact congrArg (some ∘ Instr.lutCode) (dataByte_zext32 c)
  | lutChar i => exact congrArg (some ∘ Instr.lutChar) (toNat_ofNat_of_indexFits h)
  | lenEnc n => exact congrArg (some ∘ Instr.lenEnc) (toInt_ofInt_of_lengthFits h)
  | lenDec n => exact congrArg (some ∘ Instr.lenDec) (toInt_ofInt_of_lengthFits h)

theorem decode_encode {i : Instr} (h : i.WellFormed) : decode (encode i) = .command i :=
  decode_commandWord_of_decodeFields (decodeFields_opc_data h)

/-- Settles O9: a command word is made of its opcode and its `DATA`, from which `decodeFields_opc_data` reads the
command back. -/
theorem decodeOfEncode : Obligations.DecodeOfEncode := fun _ => decode_encode

/-- A well-formed command's word runs the command. -/
theorem runCommand_encode {i : Instr} (h : i.WellFormed) (s : State) : runCommand (encode i) s = exec i s :=
  runCommand_command (decode_encode h) s

/-! ## Encoding what was decoded -/

/-- Clearing all but the k low bytes of a word leaves its value modulo 256^k, which is that of its k low bytes. -/
theorem eq_and_of_leValue_wordBytes {v data mask : Word} (k : Nat) (hk : mask.toNat = 2 ^ (8 * k) - 1)
    (hv : v.toNat = leValue (wordBytes k data)) : v = data &&& mask := by
  apply BitVec.eq_of_toNat_eq
  rw [hv, leValue_wordBytes, BitVec.toNat_and, hk, Nat.and_two_pow_sub_one_eq_mod, Nat.pow_mul]

theorem zext32_dataByte (data : Word) : zext32 (dataByte data 0) = data &&& 0x000000FF :=
  eq_and_of_leValue_wordBytes 1 rfl (toNat_zext32 _)

theorem lengthFits_toInt (data : Word) : lengthFits data.toInt = true :=
  Bool.and_eq_true_iff.2 ⟨decide_eq_true data.le_toInt, decide_eq_true data.toInt_lt⟩

/-- What an assigned opcode and its `DATA` stand for is well formed, and its own `DATA` is that with the ignored bits
cleared (30_encoding.md R64, R72). -/
theorem wf_and_data_of_decodeFields {opc : Byte} {data : Word} {i : Instr} (h : decodeFields opc data = some i) :
    i.WellFormed ∧ i.data = data &&& readMask opc := by
  obtain rfl := opc_of_decodeFields h
  have whole : data = data &&& 0xFFFFFFFF#32 := BitVec.and_allOnes.symm
  cases i with
  | nop | decFinal | decClear | decRdw | decRdm => exact ⟨rfl, BitVec.and_zero.symm⟩
  | enc1 b0 => cases h; exact ⟨rfl, zext32_dataByte data⟩
  | enc2 b0 b1 => cases h; exact ⟨rfl, eq_and_of_leValue_wordBytes 2 rfl (toNat_data_enc2 _ _)⟩
  | enc3 b0 b1 b2 => cases h; exact ⟨rfl, eq_and_of_leValue_wordBytes 3 rfl (toNat_data_enc3 _ _ _)⟩
  | enc4 b0 b1 b2 b3 => cases h; exact ⟨rfl, eq_and_of_leValue_wordBytes 4 rfl (toNat_data_enc4 _ _ _ _)⟩
  | decChar c => cases h; exact ⟨rfl, zext32_dataByte data⟩
  | lutMem c => cases h; exact ⟨rfl, zext32_dataByte data⟩
  | lutCode c => cases h; exact ⟨rfl, zext32_dataByte data⟩
  | lutChar i => cases h; exact ⟨decide_eq_true data.isLt, (BitVec.ofNat_toNat 32 data).trans whole⟩
  | lenEnc n => cases h; exact ⟨lengthFits_toInt data, BitVec.ofInt_toInt.trans whole⟩
  | lenDec n => cases h; exact ⟨lengthFits_toInt data, BitVec.ofInt_toInt.trans whole⟩

/-- `OPC[7:4]` of a command's opcode is the code of its unit (30_encoding.md R61, R62). -/
theorem opc_unit (i : Instr) : i.opc.extractLsb' 4 4 = i.codecUnit.code := by
  cases i <;> simp [Instr.opc, Instr.codecUnit, CodecUnit.code]

/-- Settles O10: the decoded command has its word's opcode (`opc_of_decode`), which names its unit, and its `DATA` by
`wf_and_data_of_decodeFields`. -/
theorem encodeOfDecode : Obligations.EncodeOfDecode := by
  intro cw i h
  obtain ⟨hwf, hdata⟩ := wf_and_data_of_decodeFields (decode_eq_command.1 h)
  have hopc := opc_of_decode h
  exact ⟨hwf, hopc ▸ opc_unit i, by rw [encode, hdata, hopc]⟩

/-- Settles O11, by evaluating the decoder on each word. -/
theorem specExampleWordsDecode : Obligations.SpecExampleWordsDecode := by
  unfold Obligations.SpecExampleWordsDecode
  decide

/-! ## Assembled words -/

/-- Settles O12: the text is read as a line, the line assembles to well-formed commands (`assemble_wf`), and each
command's word decodes to it. -/
theorem assembledWordsDecode : Obligations.AssembledWordsDecode := by
  intro a text cws h
  obtain ⟨is, hline, rfl⟩ := Option.map_eq_some_iff.1 h
  obtain ⟨line, hread, hasm⟩ := Option.bind_eq_some_iff.1 hline
  refine ⟨line, is, hread, hasm, assemble_wf hasm, rfl, ?_⟩
  rw [assembleWords, List.map_map]
  exact List.map_congr_left fun i hi => decode_encode (assemble_wf hasm i hi)

/-! ## Which commands a line assembles to -/

section Operands

variable {a : Alphabet} {os : List AsmOperand} {is : List Instr}

/-- A list of a known length, taken apart from its head. -/
theorem exists_list_length_succ {α : Type} {n : Nat} {P : List α → Prop} :
    (∃ l : List α, l.length = n + 1 ∧ P l) ↔ ∃ x, ∃ l : List α, l.length = n ∧ P (x :: l) := by
  constructor
  · rintro ⟨_ | ⟨x, l⟩, hlen, h⟩
    · cases hlen
    · exact ⟨x, l, Nat.succ.inj hlen, h⟩
  · rintro ⟨x, l, hlen, h⟩
    exact ⟨x :: l, congrArg (· + 1) hlen, h⟩

theorem withBlock_one : withBlock a 1 os = some is ↔
    ∃ b0, os.map (operandByte a) = [some b0] ∧ is = [.enc1 b0] := by
  simp only [withBlock_eq_some, and_left_comm (b := List.length _ = _), exists_list_length_succ,
    List.length_eq_zero_iff, exists_eq_left, List.map_cons, List.map_nil, encBuf]

theorem withBlock_two : withBlock a 2 os = some is ↔
    ∃ b0 b1, os.map (operandByte a) = [some b0, some b1] ∧ is = [.enc2 b0 b1] := by
  simp only [withBlock_eq_some, and_left_comm (b := List.length _ = _), exists_list_length_succ,
    List.length_eq_zero_iff, exists_eq_left, List.map_cons, List.map_nil, encBuf]

theorem withBlock_three : withBlock a 3 os = some is ↔
    ∃ b0 b1 b2, os.map (operandByte a) = [some b0, some b1, some b2] ∧ is = [.enc3 b0 b1 b2] := by
  simp only [withBlock_eq_some, and_left_comm (b := List.length _ = _), exists_list_length_succ,
    List.length_eq_zero_iff, exists_eq_left, List.map_cons, List.map_nil, encBuf]

theorem withBlock_four : withBlock a 4 os = some is ↔
    ∃ b0 b1 b2 b3, os.map (operandByte a) = [some b0, some b1, some b2, some b3] ∧ is = [.enc4 b0 b1 b2 b3] := by
  simp only [withBlock_eq_some, and_left_comm (b := List.length _ = _), exists_list_length_succ,
    List.length_eq_zero_iff, exists_eq_left, List.map_cons, List.map_nil, encBuf]

/-- A command of one byte operand assembles from every byte operand, because a byte always fits. -/
theorem withOperand_byte {f : Byte → Instr} (hf : ∀ c, (f c).WellFormed) :
    withOperand (operandByte a) f os = some is ↔ ∃ c, os.map (operandByte a) = [some c] ∧ is = [f c] := by
  rw [withOperand_eq_some]
  constructor
  · rintro ⟨o, c, rfl, ho, -, rfl⟩
    exact ⟨c, by rw [List.map_singleton, ho], rfl⟩
  · rintro ⟨c, h, rfl⟩
    obtain ⟨o, rfl, ho⟩ := List.map_eq_singleton_iff.1 h
    exact ⟨o, c, rfl, ho, hf c, rfl⟩

theorem operandIndex_eq_some {o : AsmOperand} {i : Nat} :
    operandIndex o = some i ↔ o = .decimal i ∨ ∃ width, o = .hex width i := by
  cases o <;> simp [operandIndex]

theorem operandLength_eq_some {o : AsmOperand} {v : Int} :
    operandLength o = some v ↔ ∃ n : Nat, (o = .decimal n ∧ v = n) ∨ (o = .negative n ∧ v = -n) := by
  cases o <;> simp [operandLength, eq_comm]

theorem withOperand_index : withOperand operandIndex .lutChar os = some is ↔
    ∃ i, i < 2 ^ 32 ∧ (os = [.decimal i] ∨ ∃ width, os = [.hex width i]) ∧ is = [.lutChar i] := by
  rw [withOperand_eq_some]
  constructor
  · rintro ⟨o, i, rfl, ho, hi, rfl⟩
    refine ⟨i, of_decide_eq_true hi, ?_, rfl⟩
    obtain rfl | ⟨width, rfl⟩ := operandIndex_eq_some.1 ho
    · exact .inl rfl
    · exact .inr ⟨width, rfl⟩
  · rintro ⟨i, hi, rfl | ⟨width, rfl⟩, rfl⟩
    · exact ⟨_, i, rfl, rfl, decide_eq_true hi, rfl⟩
    · exact ⟨_, i, rfl, rfl, decide_eq_true hi, rfl⟩

theorem lengthFits_iff {n : Int} : lengthFits n = true ↔ -2 ^ 31 ≤ n ∧ n < 2 ^ 31 := by
  simp [lengthFits]

/-- A command of one signed length assembles from the decimal numbers that fit 32 bits (30_encoding.md R72). -/
theorem withOperand_length {f : Int → Instr} (hf : ∀ n, (f n).wf = lengthFits n) :
    withOperand operandLength f os = some is ↔ ∃ n : Nat,
      (n < 2 ^ 31 ∧ os = [.decimal n] ∧ is = [f n]) ∨ (n ≤ 2 ^ 31 ∧ os = [.negative n] ∧ is = [f (-n)]) := by
  have fits (v : Int) : (f v).WellFormed ↔ -2 ^ 31 ≤ v ∧ v < 2 ^ 31 := by
    rw [Instr.WellFormed, hf, lengthFits_iff]
  rw [withOperand_eq_some]
  constructor
  · rintro ⟨o, v, rfl, ho, hv, rfl⟩
    rw [fits] at hv
    obtain ⟨n, ⟨rfl, rfl⟩ | ⟨rfl, rfl⟩⟩ := operandLength_eq_some.1 ho
    · exact ⟨n, .inl ⟨by omega, rfl, rfl⟩⟩
    · exact ⟨n, .inr ⟨by omega, rfl, rfl⟩⟩
  · rintro ⟨n, ⟨hn, rfl, rfl⟩ | ⟨hn, rfl, rfl⟩⟩
    · exact ⟨_, n, rfl, rfl, (fits n).2 (by omega), rfl⟩
    · exact ⟨_, -n, rfl, rfl, (fits (-n)).2 (by omega), rfl⟩

end Operands

theorem encode_fields (i : Instr) : (encode i).data = i.data ∧ (encode i).opc = i.opc :=
  ⟨commandWord_data i.data i.opc, commandWord_opc i.data i.opc⟩

/-- Settles O48: each mnemonic reads its operands through `withoutOperand`, `withBlock` or `withOperand`, and the values
of `DATA` are those decoding rests on. -/
theorem operandsAssembleToCommands : Obligations.OperandsAssembleToCommands := by
  refine ⟨fun a => ⟨fun _ _ => rfl, fun _ => rfl, rfl, fun _ => ⟨rfl, rfl⟩⟩, fun a os is => ?_, encode_fields, ?_,
    fun b0 b1 b2 b3 => ?_, fun c => ⟨toNat_zext32 c, toNat_zext32 c, toNat_zext32 c⟩, fun i hi => ?_, fun n => ?_⟩
  · exact ⟨withoutOperand_eq_some, withoutOperand_eq_some, withoutOperand_eq_some, withoutOperand_eq_some,
      withoutOperand_eq_some, withBlock_one, withBlock_two, withBlock_three, withBlock_four,
      withOperand_byte fun _ => rfl, withOperand_byte fun _ => rfl, withOperand_byte fun _ => rfl,
      withOperand_index, withOperand_length fun _ => rfl, withOperand_length fun _ => rfl⟩
  · simp [Instr.data]
  · rw [toNat_data_enc1, toNat_data_enc2, toNat_data_enc3, toNat_data_enc4, leValue_one, leValue_two, leValue_three,
      leValue_four]
    exact ⟨rfl, rfl, rfl, rfl⟩
  · exact toNat_ofNat_of_indexFits (decide_eq_true hi)
  · have hmod : ((BitVec.ofInt 32 n).toNat : Int) = n % 2 ^ 32 := by
      rw [BitVec.toNat_ofInt]
      omega
    exact ⟨hmod, hmod⟩

/-! ## Reading a written line back -/

/-- A character sequence that trimming spaces leaves as it is, and that is not empty. -/
abbrev Trimmed (cs : List Char) : Prop := cs ≠ [] ∧ cs.head? ≠ some ' ' ∧ cs.getLast? ≠ some ' '

theorem Trimmed.trimSpaces {cs : List Char} (h : Trimmed cs) : trimSpaces cs = cs := trimSpaces_id h.2.1 h.2.2

theorem trimmed_of_inOperand {cs : List Char} (hne : cs ≠ []) (h : ∀ c ∈ cs, inOperand c) : Trimmed cs :=
  ⟨hne, fun e => (h ' ' (List.mem_of_mem_head? e)).2 rfl, fun e => (h ' ' (List.mem_of_mem_getLast? e)).2 rfl⟩

/-- Whatever stands between two trimmed sequences, the whole begins as the first and ends as the second. -/
theorem Trimmed.append {cs ds : List Char} (hcs : Trimmed cs) (hds : Trimmed ds) (between : List Char) :
    Trimmed (cs ++ (between ++ ds)) := by
  obtain ⟨hne, hhead, -⟩ := hcs
  obtain ⟨hne', -, hlast⟩ := hds
  refine ⟨by simp [hne], ?_, ?_⟩
  · rwa [List.head?_append_of_ne_nil _ hne]
  · rwa [List.getLast?_append_of_ne_nil _ (by simp [hne']), List.getLast?_append_of_ne_nil _ hne']

theorem operandText_trimmed (u : Bool) (o : AsmOperand) : Trimmed (o.text u) :=
  trimmed_of_inOperand (operandText_ne_nil u o) (operandText_inOperand u o)

theorem operandsText_trimmed (u : Bool) : (os : List AsmOperand) → os ≠ [] → Trimmed (operandsText u os)
  | [], hne => absurd rfl hne
  | [o], _ => operandText_trimmed u o
  | o :: o' :: os, _ =>
    (operandText_trimmed u o).append (operandsText_trimmed u (o' :: os) (by simp)) [',', ' ']

theorem spelling_inOperand (mn : Mnemonic) : ∀ c ∈ mn.spelling, inOperand c := by
  cases mn <;> simp [Mnemonic.spelling, inOperand]

theorem spelling_trimmed (mn : Mnemonic) : Trimmed mn.spelling :=
  trimmed_of_inOperand (by cases mn <;> decide) (spelling_inOperand mn)

/-- No two mnemonics are spelled alike. -/
theorem find_spelling (mn : Mnemonic) : mnemonics.find? (·.spelling == mn.spelling) = some mn := by
  cases mn <;> rfl

/-- Reading splits a line at the first space, where the mnemonic ends. -/
theorem readLine_spelling_append {mn : Mnemonic} {tail : List Char} (htrim : Trimmed (mn.spelling ++ tail))
    (htail : tail = [] ∨ tail.head? = some ' ') :
    readLine (mn.spelling ++ tail) =
      (if (trimSpaces tail).isEmpty then some [] else readOperands (splitCommas (trimSpaces tail))).map (⟨mn, ·⟩) := by
  have hsp : ∀ c ∈ mn.spelling, (c != ' ') = true := fun c hc => bne_iff_ne.2 (spelling_inOperand mn c hc).2
  have htake : tail.takeWhile (· != ' ') = [] := by
    obtain rfl | h := htail
    · rfl
    · obtain ⟨w, rfl⟩ := List.head?_eq_some_iff.1 h
      rfl
  have hdrop : tail.dropWhile (· != ' ') = tail := by
    simpa [htake] using List.takeWhile_append_dropWhile (p := (· != ' ')) (l := tail)
  unfold readLine
  simp only [htrim.trimSpaces, List.takeWhile_append_of_pos hsp, List.dropWhile_append_of_pos hsp, htake, hdrop,
    List.append_nil, find_spelling]
  generalize (if (trimSpaces tail).isEmpty then some [] else readOperands (splitCommas (trimSpaces tail))) = os
  cases os <;> rfl

/-- Settles O47: a written line begins with its mnemonic's spelling, and what follows is its operands
(`readOperands_operandsText`); so the text assembles as the line does. -/
theorem writtenLinesReadBack : Obligations.WrittenLinesReadBack := by
  intro upper line hw
  have hread : readLine (line.text upper) = some line := by
    obtain ⟨mn, os⟩ := line
    cases os with
    | nil =>
      have h := readLine_spelling_append (mn := mn) (tail := []) (by simpa using spelling_trimmed mn) (.inl rfl)
      simpa [AsmLine.text, trimSpaces] using h
    | cons o os =>
      have hos := operandsText_trimmed upper (o :: os) (by simp)
      have h := readLine_spelling_append ((spelling_trimmed mn).append hos [' ']) (.inr rfl)
      have hempty : (operandsText upper (o :: os)).isEmpty = false := by simpa using hos.1
      rw [List.singleton_append, trimSpaces_space, hos.trimSpaces, hempty,
        readOperands_operandsText upper (o :: os) (by simp) hw] at h
      exact h
  exact ⟨hread, fun a => by rw [assembleText, hread]; rfl⟩

end Sys2Proof.Machine

/-! PROOFS about the tables (40_alphabet_lut.md), the length functions (41_length.md), a single step (30_encoding.md
section 5, 10_state.md R24) and what a command leaves unchanged (20_memory.md section 4, 60_exceptions.md section 1). -/

namespace Sys2Proof.Machine

/-! ## The members of a valid table -/

theorem member_eq_true_iff_mem {a : Alphabet} {c : Byte} : a.member c = true ↔ c ∈ a.toList := by
  rw [Alphabet.member_eq_true]
  constructor
  · rintro ⟨d, rfl⟩
    exact a.char_mem d
  · exact Alphabet.exists_char_of_mem

/-- The members are the entries of the table, each once, so there are as many as entries. -/
theorem members_perm_entries {a : Alphabet} (hv : a.Valid) :
    ((List.range 256).filter fun n => a.member (BitVec.ofNat 8 n)).Perm (a.toList.map BitVec.toNat) := by
  have hinj : Function.Injective (BitVec.toNat (w := 8)) := fun _ _ => BitVec.eq_of_toNat_eq
  refine (List.perm_ext_iff_of_nodup (List.nodup_range.filter _) (hv.1.map hinj)).2 fun n => ?_
  simp only [List.mem_filter, List.mem_range, member_eq_true_iff_mem, List.mem_map]
  constructor
  · rintro ⟨hn, hmem⟩
    exact ⟨_, hmem, (BitVec.toNat_ofNat n 8).trans (Nat.mod_eq_of_lt hn)⟩
  · rintro ⟨c, hmem, rfl⟩
    exact ⟨c.isLt, by rwa [BitVec.ofNat_toNat, BitVec.setWidth_eq]⟩

/-- Settles O20: the members are the 85 entries (`members_perm_entries`), entry 0 is 0x30, and the other bytes named are
none that R9 allows as an entry. -/
theorem membersOfEveryAlphabet : Obligations.MembersOfEveryAlphabet := by
  intro a hv
  refine ⟨?_, hv.code_eq_some.2 hv.2.1, fun c hc => ?_⟩
  · rw [(members_perm_entries hv).length_eq, List.length_map, Vector.length_toList]
  · rw [← Bool.not_eq_true, member_eq_true_iff_mem]
    intro hmem
    obtain ⟨hlo, hhi, hdouble, hsingle, hback⟩ := hv.2.2 c hmem
    obtain h | h | h | h | h := hc
    · omega
    · exact hdouble h
    · exact hsingle h
    · exact hback h
    · omega

/-! ## The length functions -/

theorem elen_mono {n m : Nat} (h : n ≤ m) : elen n ≤ elen m := by
  unfold elen
  split <;> split <;> omega

theorem dlen_mono {n m : Nat} (h : n ≤ m) : dlen n ≤ dlen m := by
  unfold dlen
  omega

/-- The encoded length has one digit more than bytes in a last partial block, and so none where that is empty. -/
theorem elen_div_mod (n : Nat) :
    elen n / 5 = n / 4 ∧ elen n % 5 = if n % 4 = 0 then 0 else 1 + n % 4 := by
  unfold elen
  split <;> omega

theorem dlen_elen (n : Nat) : dlen (elen n) = n := by
  obtain ⟨hdiv, hmod⟩ := elen_div_mod n
  unfold dlen
  rw [hdiv, hmod]
  split <;> omega

/-- Settles O23: `elen_le_lenMax` places the boundary. -/
theorem encodedLengthBoundary : Obligations.EncodedLengthBoundary :=
  ⟨fun _ _ => elen_mono, fun _ => elen_le_lenMax, rfl, rfl⟩

/-- Settles O24: quotient and remainder of the encoded length (`elen_div_mod`) give the last two properties. -/
theorem lengthFunctionProperties : Obligations.LengthFunctionProperties := by
  refine ⟨rfl, rfl, fun _ _ h => ⟨elen_mono h, dlen_mono h⟩, fun n => ⟨?_, dlen_elen n, ?_⟩⟩
  · unfold dlen
    omega
  · rw [(elen_div_mod n).2]
    split <;> omega

/-! ## One step -/

theorem step_of_no_inputs {s : State} (h : s.inputs = []) : step s = .next s.idle := by
  simp only [step, stepOnce, takeInput_nil s h]

theorem step_of_no_command (s : State) (cw : CommandWord) (rest : List PortInput) :
    step (s.withInputs ({ rst := false, cmdValid := false, cmdWord := cw } :: rest)) =
      .next (s.withInputs rest).idle := rfl

/-- Settles O3: a step without a command is `State.idle`, whose field updates the statement writes out. -/
theorem noCommandNoResponse : Obligations.NoCommandNoResponse :=
  ⟨fun _ h => step_of_no_inputs h, step_of_no_command, step_of_no_inputs rfl⟩

/-- Settles O4: a step on an issued word runs it (`step_issuing`). -/
theorem stepRunsDecodedCommand : Obligations.StepRunsDecodedCommand := fun s cw rest _ h =>
  (step_issuing s cw rest).trans (runCommand_command h (s.withInputs rest))

/-- No step writes the forward table (10_state.md R28). -/
theorem step_alphabet {s t : State} (ht : step s = .next t) : t.alphabet = s.alphabet := by
  obtain ⟨-, h⟩ | ⟨p, ps, -, -, h⟩ | ⟨p, ps, -, -, -, h⟩ | ⟨p, ps, -, -, -, h⟩ := step_cases s
  · cases h.symm.trans ht
    rfl
  · cases h.symm.trans ht
    rfl
  · cases h.symm.trans ht
    rfl
  · obtain ⟨w, m, r, hr⟩ := runCommand_answers (s.withInputs ps) p.cmdWord
    cases (h.trans hr).symm.trans ht
    rfl

/-- Settles O35: a step keeps the decoder's part of the invariant (`step_decoderInv`) and the table (`step_alphabet`). -/
theorem everyStepKeepsInvariant : Obligations.EveryStepKeepsInvariant := by
  rintro s t ⟨hdec, hvalid⟩ ht
  have htable := step_alphabet ht
  exact ⟨⟨step_decoderInv hdec ht, htable ▸ hvalid⟩, htable⟩

/-- Settles O36: reset clears the decoder, and the built table meets R9 (`alphabet_valid`). -/
theorem invariantHoldsAtReset : Obligations.InvariantHoldsAtReset :=
  ⟨Reachable.reset.decoderInv, alphabet_valid⟩

theorem Reachable.alphabet_eq {s : State} (h : Reachable s) : s.alphabet = Config.alphabet := by
  induction h with
  | reset => rfl
  | present s ps _ ih => exact ih
  | step s t _ hs ih => exact (step_alphabet hs).trans ih

/-- Settles O37: both parts of the invariant hold of every reachable state (`Reachable.decoderInv`,
`Reachable.alphabet_eq`); with no digit, `WORD` is below 85^0. -/
theorem reachableStatesMeetInvariant : Obligations.ReachableStatesMeetInvariant := by
  intro s h
  obtain ⟨hm, hw⟩ := h.decoderInv
  refine ⟨by bv_omega, hw, fun hm0 => BitVec.eq_of_toNat_eq ?_, h.alphabet_eq, h.alphabet_eq ▸ alphabet_valid⟩
  rw [hm0] at hw
  exact Nat.lt_one_iff.1 hw

/-! ## What a command leaves unchanged -/

/-- A command other than `DEC.CHAR` of a member, `DEC.FINAL` and `DEC.CLEAR` leaves `WORD` and `M`. -/
theorem exec_leaves_decoder {s : State} {i : Instr} (hfinal : i ≠ .decFinal) (hclear : i ≠ .decClear)
    (hchar : ∀ c, i = .decChar c → s.alphabet.member c = false) :
    ∃ r, exec i s = .next (s.answered s.word s.m r) := by
  obtain h | ⟨c, d, rfl, hc, -⟩ | ⟨rfl, -⟩ | ⟨rfl, -⟩ := exec_cases s i
  · exact h
  · rw [Alphabet.member_eq_false.1 (hchar c rfl)] at hc
    cases hc
  · exact absurd rfl hfinal
  · exact absurd rfl hclear

/-- A command that left `WORD` and `M` finds all it depends on as before, and answers the same again. -/
theorem exec_again {s : State} {i : Instr} {r : Response} (h : exec i s = .next (s.answered s.word s.m r)) :
    ∃ u, exec i (s.answered s.word s.m r) = .next u ∧ u.rsp = some r := by
  obtain ⟨w, m, r', hdep⟩ := exec_depends s i
  have hr : some r' = some r := congrArg State.rsp (Host.Outcome.next.inj ((hdep s.inputs s.rsp s.rsps).symm.trans h))
  exact ⟨_, hdep s.inputs (some r) (s.rsps ++ [r]), hr⟩

/-- Settles O38: every command only answers (`exec_answers`), and one that does not write the decoder leaves it
(`exec_leaves_decoder`) and so answers the same again. -/
theorem onlyDecoderCommandsWriteState : Obligations.OnlyDecoderCommandsWriteState := by
  intro s t i ht
  obtain ⟨w, m, r, h⟩ := exec_answers s i
  cases h.symm.trans ht
  refine ⟨rfl, rfl, fun hfinal hclear hchar => ?_⟩
  obtain ⟨r', h'⟩ := exec_leaves_decoder hfinal hclear hchar
  cases h'.symm.trans ht
  exact ⟨rfl, rfl, exec_again h'⟩

/-! ## Errors -/

/-- `VAL` of an error's response (60_exceptions.md R181). -/
def errorValue (st : Status) : Word := if st = .invalidLength ∨ st = .overflow then 0xFFFFFFFF else 0

theorem lenEncStatus_cases (n : Int) :
    lenEncStatus n = .ok ∨ lenEncStatus n = .invalidLength ∨ lenEncStatus n = .overflow := by
  unfold lenEncStatus
  split
  · simp
  · split <;> simp

theorem lenDecStatus_cases (n : Int) : lenDecStatus n = .ok ∨ lenDecStatus n = .invalidLength := by
  unfold lenDecStatus
  split <;> simp

/-- A command whose operand fails its check only raises the error. -/
theorem exec_of_commandStatus_ne_ok {i : Instr} (h : commandStatus i ≠ .ok) (s : State) :
    exec i s = raise (commandStatus i) (errorValue (commandStatus i)) s := by
  cases i with
  | lutChar i =>
    by_cases hi : i < 85
    · exact absurd (if_neg hi.not_ge) h
    · rw [exec_lutChar_of_ge s (not_lt.1 hi)]
      simp only [commandStatus, lutCharStatus, if_pos (not_lt.1 hi)]
      rfl
  | lenEnc n =>
    simp only [commandStatus, exec, execLenEnc] at h ⊢
    obtain hst | hst | hst := lenEncStatus_cases n
    · exact absurd hst h
    · rw [hst]; rfl
    · rw [hst]; rfl
  | lenDec n =>
    simp only [commandStatus, exec, execLenDec] at h ⊢
    obtain hst | hst := lenDecStatus_cases n
    · exact absurd hst h
    · rw [hst]; rfl
  | _ => exact absurd rfl h

/-- Settles O39: a reserved opcode and a command whose operand fails its check only raise the error, and any other
command answers `OK` (`exec_st`). -/
theorem errorsWriteNoState : Obligations.ErrorsWriteNoState := by
  intro s t cw r ht hr hst
  have raised {st : Status} (h : runCommand cw s = raise st (errorValue st) s) :
      t = s.answered s.word s.m r ∧ r.n = 0 ∧ r.out = 0 ∧ r.val = errorValue r.st := by
    cases h.symm.trans ht
    cases hr
    exact ⟨rfl, rfl, rfl, rfl⟩
  cases hdec : decode cw with
  | reserved o => exact raised (st := .illegal) (runCommand_reserved hdec s)
  | command i =>
    by_cases hok : commandStatus i = .ok
    · obtain ⟨w, m, r', h, hst'⟩ := exec_st i s
      cases ((runCommand_command hdec s).trans h).symm.trans ht
      cases hr
      exact absurd (hst'.trans hok) hst
    · exact raised ((runCommand_command hdec s).trans (exec_of_commandStatus_ne_ok hok s))

end Sys2Proof.Machine

/-! PROOFS about runs of command words (70_reset_and_hazards.md sections 3 and 6): the responses of a run in order, what
may be interleaved or left out, and that no assembled command answers `ILLEGAL` (93_implementation_defined.md I6). -/

namespace Sys2Proof.Machine

/-! ## The responses of a run -/

/-- A run of two lists is the run of the second from where the first ends. -/
theorem run_append {cws cws' : List CommandWord} {s t : State} (h : run cws s = .next t) :
    run (cws ++ cws') s = run cws' t := by
  induction cws generalizing s with
  | nil =>
    cases h
    rfl
  | cons cw cws ih =>
    obtain ⟨w, m, r, hr⟩ := runCommand_answers s cw
    rw [run_cons s hr] at h
    rw [List.cons_append, run_cons s hr, ih h]

/-- The run from `s` ends in `t`, with these responses after the earlier ones, the same table and nothing left to
present. -/
structure RunAnswers (cws : List CommandWord) (s t : State) (rs : List Response) : Prop where
  run_eq : run cws s = .next t
  alphabet_eq : t.alphabet = s.alphabet
  inputs_eq : t.inputs = []
  rsps_eq : t.rsps = s.rsps ++ rs

namespace RunAnswers

variable {cw : CommandWord} {cws cws' : List CommandWord} {s t u : State} {w : Word} {m : BitVec 3} {r : Response}
  {rs rs' : List Response}

theorem nil (s : State) : RunAnswers [] s (s.withInputs []) [] :=
  ⟨rfl, rfl, rfl, (List.append_nil s.rsps).symm⟩

theorem cons (hr : runCommand cw s = .next (s.answered w m r)) (h : RunAnswers cws (s.answered w m r) t rs) :
    RunAnswers (cw :: cws) s t (r :: rs) :=
  ⟨(run_cons s hr cws).trans h.run_eq, h.alphabet_eq, h.inputs_eq, by
    rw [h.rsps_eq, State.answered_rsps, List.append_assoc, List.singleton_append]⟩

theorem append (h : RunAnswers cws s t rs) (h' : RunAnswers cws' t u rs') :
    RunAnswers (cws ++ cws') s u (rs ++ rs') :=
  ⟨(run_append h.run_eq).trans h'.run_eq, h'.alphabet_eq.trans h.alphabet_eq, h'.inputs_eq, by
    rw [h'.rsps_eq, h.rsps_eq, List.append_assoc]⟩

theorem newResponses_eq (h : RunAnswers cws s t rs) : newResponses s t = rs := by
  rw [newResponses, h.rsps_eq, List.drop_left]

end RunAnswers

/-- Every run answers once per command. -/
theorem exists_runAnswers (cws : List CommandWord) (s : State) :
    ∃ t rs, RunAnswers cws s t rs ∧ rs.length = cws.length := by
  induction cws generalizing s with
  | nil => exact ⟨_, _, .nil s, rfl⟩
  | cons cw cws ih =>
    obtain ⟨w, m, r, hr⟩ := runCommand_answers s cw
    obtain ⟨t, rs, h, hlen⟩ := ih (s.answered w m r)
    exact ⟨t, r :: rs, h.cons hr, congrArg (· + 1) hlen⟩

/-- Settles O45: the responses are those of `exists_runAnswers`, and `run_append` cuts the run in two. -/
theorem runAnswersInOrder : Obligations.RunAnswersInOrder := by
  intro s cws cws'
  obtain ⟨t, rs, h, hlen⟩ := exists_runAnswers cws s
  exact ⟨t, h.run_eq, h.newResponses_eq ▸ hlen, ⟨rs, h.rsps_eq.symm⟩, h.inputs_eq, run_append h.run_eq⟩

/-! ## Commands that do not write the decoder -/

/-- The command words that can write the decoder: `DEC.CHAR`, `DEC.FINAL` and `DEC.CLEAR` (20_memory.md section 4). -/
abbrev mayWriteDecoder (cw : CommandWord) : Bool := cw.opc == 0x20 || cw.opc == 0x21 || cw.opc == 0x22

/-- Every other word, a reserved opcode's included, leaves `WORD` and `M`. -/
theorem runCommand_leaves_decoder {cw : CommandWord} (h : mayWriteDecoder cw = false) (s : State) :
    ∃ r, runCommand cw s = .next (s.answered s.word s.m r) := by
  cases hdec : decode cw with
  | reserved o => exact ⟨_, runCommand_reserved hdec s⟩
  | command i =>
    rw [runCommand_command hdec]
    rw [mayWriteDecoder, ← opc_of_decode hdec] at h
    apply exec_leaves_decoder
    · rintro rfl
      simp [Instr.opc] at h
    · rintro rfl
      simp [Instr.opc] at h
    · rintro c rfl
      simp [Instr.opc] at h

/-- From two states with the same table and decoder, a run and the run of only its words that can write the decoder
leave the same decoder. -/
theorem run_filter_mayWriteDecoder (cws : List CommandWord) {s s' : State} (ha : s.alphabet = s'.alphabet)
    (hw : s.word = s'.word) (hm : s.m = s'.m) :
    ∃ t u, run cws s = .next t ∧ run (cws.filter mayWriteDecoder) s' = .next u ∧ t.word = u.word ∧ t.m = u.m := by
  induction cws generalizing s s' with
  | nil => exact ⟨_, _, run_nil s, run_nil s', hw, hm⟩
  | cons cw cws ih =>
    cases hcw : mayWriteDecoder cw with
    | true =>
      obtain ⟨-, -, -, same⟩ := everyCommandAnswersOnce
      obtain ⟨w, m, r, hr, hr'⟩ := same s s' cw ha hw hm
      rw [List.filter_cons_of_pos hcw, run_cons s hr, run_cons s' hr']
      exact ih ha rfl rfl
    | false =>
      obtain ⟨r, hr⟩ := runCommand_leaves_decoder hcw s
      rw [List.filter_cons_of_neg (by simp [hcw]), run_cons s hr]
      exact ih ha hw hm

/-- Settles O44: both runs begin in the same state. -/
theorem interleavedCommandsLeaveDecoder : Obligations.InterleavedCommandsLeaveDecoder := fun _ cws =>
  run_filter_mayWriteDecoder cws rfl rfl rfl

/-! ## Only reserved opcodes answer `ILLEGAL` -/

theorem commandStatus_ne_illegal (i : Instr) : commandStatus i ≠ .illegal := by
  cases i with
  | lutChar i =>
    simp only [commandStatus, lutCharStatus]
    split <;> simp
  | lenEnc n => obtain h | h | h := lenEncStatus_cases n <;> simp [commandStatus, h]
  | lenDec n => obtain h | h := lenDecStatus_cases n <;> simp [commandStatus, h]
  | _ => simp [commandStatus]

theorem run_assembleWords_noIllegal {is : List Instr} (hwf : ∀ i ∈ is, i.WellFormed) {s : State} (hs : s.NoIllegal) :
    ∃ t, run (assembleWords is) s = .next t ∧ t.NoIllegal := by
  induction is generalizing s with
  | nil => exact ⟨_, run_nil s, hs⟩
  | cons i is ih =>
    rw [List.forall_mem_cons] at hwf
    obtain ⟨w, m, r, hr, hst⟩ := exec_st i s
    have hnext : (s.answered w m r).NoIllegal := by
      intro r' hr'
      obtain h | h := List.mem_append.1 hr'
      · exact hs r' h
      · rw [List.mem_singleton.1 h, hst]
        exact commandStatus_ne_illegal i
    rw [assembleWords, List.map_cons, run_cons s ((runCommand_encode hwf.1 s).trans hr)]
    exact ih hwf.2 hnext

/-- Settles O46: a command answers its `commandStatus` (`exec_st`), which is never `ILLEGAL`. -/
theorem assembledProgramsGiveNoIllegal : Obligations.AssembledProgramsGiveNoIllegal := by
  refine ⟨fun s is hwf hs => run_assembleWords_noIllegal hwf hs, fun s t i r ht hr => ?_⟩
  obtain ⟨w, m, r', h, hst⟩ := exec_st i s
  cases h.symm.trans ht
  cases hr
  exact hst ▸ commandStatus_ne_illegal i

end Sys2Proof.Machine

/-! PROOFS about whole buffers (42_encoder.md section 3, 43_decoder.md sections 1 and 3): the characters `ENC.BUF`
emits, the bytes `DEC.STR` emits, and that decoding undoes encoding. -/

namespace Sys2Proof.Machine

/-! ## The items of a run -/

/-- The run from `s` ends in `t` and the host appends these items to its output (20_memory.md R44). -/
def RunEmits (cws : List CommandWord) (s t : State) (items : List Byte) : Prop :=
  ∃ rs, RunAnswers cws s t rs ∧ rs.flatMap Response.itemList = items

namespace RunEmits

variable {cw : CommandWord} {cws cws' : List CommandWord} {s t u : State} {w : Word} {m : BitVec 3} {r : Response}
  {items items' : List Byte}

theorem run_eq (h : RunEmits cws s t items) : run cws s = .next t := by
  obtain ⟨rs, h, -⟩ := h
  exact h.run_eq

theorem alphabet_eq (h : RunEmits cws s t items) : t.alphabet = s.alphabet := by
  obtain ⟨rs, h, -⟩ := h
  exact h.alphabet_eq

theorem newItems_eq (h : RunEmits cws s t items) : newItems s t = items := by
  obtain ⟨rs, h, hitems⟩ := h
  rw [newItems, h.newResponses_eq, hitems]

theorem nil (s : State) : RunEmits [] s (s.withInputs []) [] := ⟨[], .nil s, rfl⟩

theorem cons (hr : runCommand cw s = .next (s.answered w m r)) (h : RunEmits cws (s.answered w m r) t items) :
    RunEmits (cw :: cws) s t (r.itemList ++ items) := by
  obtain ⟨rs, h, rfl⟩ := h
  exact ⟨r :: rs, h.cons hr, rfl⟩

theorem append (h : RunEmits cws s t items) (h' : RunEmits cws' t u items') :
    RunEmits (cws ++ cws') s u (items ++ items') := by
  obtain ⟨rs, h, rfl⟩ := h
  obtain ⟨rs', h', rfl⟩ := h'
  exact ⟨rs ++ rs', h.append h', List.flatMap_append⟩

end RunEmits

/-! ## Encoding a buffer -/

/-- The digits of the characters `ENC.BUF` emits: for each block its size + 1 digits. -/
def bufDigits : List Byte → List Digit
  | b0 :: b1 :: b2 :: b3 :: rest => digits 5 (leValue [b0, b1, b2, b3]) ++ bufDigits rest
  | [b0, b1, b2] => digits 4 (leValue [b0, b1, b2])
  | [b0, b1] => digits 3 (leValue [b0, b1])
  | [b0] => digits 2 (leValue [b0])
  | [] => []

theorem bufDigits_length : (bs : List Byte) → (bufDigits bs).length = elen bs.length
  | b0 :: b1 :: b2 :: b3 :: rest => by
    have ih := bufDigits_length rest
    simp only [bufDigits, List.length_append, digits_length, ih, List.length_cons, elen]
    split <;> split <;> omega
  | [_, _, _] | [_, _] | [_] | [] => by simp [bufDigits, elen]

theorem encBuf_length : (bs : List Byte) →
    (encBuf bs).length = bs.length / 4 + (if bs.length % 4 = 0 then 0 else 1)
  | b0 :: b1 :: b2 :: b3 :: rest => by
    have ih := encBuf_length rest
    simp only [encBuf, List.length_cons, ih]
    split <;> split <;> omega
  | [_, _, _] | [_, _] | [_] | [] => by simp [encBuf]

/-- A command that encodes a block emits its characters and leaves `WORD` and `M`. -/
theorem run_block {i : Instr} {bs : List Byte} (hi : i.WellFormed) (hbs : bs.length ≤ 4) {s : State}
    (hexec : exec i s = encodeBlock bs s) :
    ∃ t, RunEmits (assembleWords [i]) s t (blockChars s.alphabet bs) ∧ t.word = s.word ∧ t.m = s.m := by
  have hr := ((runCommand_encode hi s).trans hexec).trans (encodeBlock_eq s bs)
  have hitems := Response.itemList_items (blockChars s.alphabet bs) (by rw [blockChars_length]; omega)
  have h := (RunEmits.nil _).cons hr
  rw [hitems, List.append_nil] at h
  exact ⟨_, h, rfl, rfl⟩

/-- `ENC.BUF` emits the characters of the digits of its blocks, and leaves `WORD` and `M`. -/
theorem run_encBuf : (bs : List Byte) → (s : State) → ∃ t,
    RunEmits (assembleWords (encBuf bs)) s t ((bufDigits bs).map s.alphabet.char) ∧ t.word = s.word ∧ t.m = s.m
  | b0 :: b1 :: b2 :: b3 :: rest, s => by
    obtain ⟨t, h, hw, hm⟩ := run_block (i := .enc4 b0 b1 b2 b3) (bs := [b0, b1, b2, b3]) (s := s) rfl (by simp) rfl
    obtain ⟨u, h', hw', hm'⟩ := run_encBuf rest t
    rw [h.alphabet_eq] at h'
    refine ⟨u, ?_, hw'.trans hw, hm'.trans hm⟩
    rw [bufDigits, List.map_append]
    exact h.append h'
  | [b0, b1, b2], s => run_block (bs := [b0, b1, b2]) rfl (by simp) rfl
  | [b0, b1], s => run_block (bs := [b0, b1]) rfl (by simp) rfl
  | [b0], s => run_block (bs := [b0]) rfl (by simp) rfl
  | [], s => ⟨_, .nil s, rfl, rfl⟩

/-- Settles O15: one command per block (`encBuf_length`), and one character per digit (`bufDigits_length`). -/
theorem encodedBufferHasEncodedLength : Obligations.EncodedBufferHasEncodedLength := by
  intro s bs
  obtain ⟨t, h, hw, hm⟩ := run_encBuf bs s
  refine ⟨t, h.run_eq, encBuf_length bs, ?_, hw, hm⟩
  rw [h.newItems_eq, List.length_map, bufDigits_length]

/-! ## Feeding the decoder -/

/-- What feeding digits to the decoder gives: the items emitted, and `WORD` and `M` after them. -/
structure Fed where
  items : List Byte
  word : Word
  m : BitVec 3

/-- Feed digits to a decoder that holds `w` and `m` (43_decoder.md R143). -/
def feed (w : Word) (m : BitVec 3) : List Digit → Fed
  | [] => ⟨[], w, m⟩
  | d :: ds =>
    if m.toNat = 4 then
      { feed 0 0 ds with items := wordBytes 4 (accumulate w m d) ++ (feed 0 0 ds).items }
    else feed (accumulate w m d) (BitVec.ofNat 3 (m.toNat + 1)) ds

theorem feed_cons_open {w : Word} {m : BitVec 3} (hm : m.toNat ≠ 4) (d : Digit) (ds : List Digit) :
    feed w m (d :: ds) = feed (accumulate w m d) (BitVec.ofNat 3 (m.toNat + 1)) ds := if_neg hm

theorem feed_cons_flush {w : Word} {m : BitVec 3} (hm : m.toNat = 4) (d : Digit) (ds : List Digit) :
    feed w m (d :: ds) =
      { feed 0 0 ds with items := wordBytes 4 (accumulate w m d) ++ (feed 0 0 ds).items } := if_pos hm

/-- All that a fed decoder emits when `DEC.FINAL` follows (43_decoder.md R144). -/
def Fed.flushed (f : Fed) : List Byte := f.items ++ (Response.items (trailingBytes f.m f.word)).itemList

/-- `DEC.BUF` feeds the decoder the digits of its members. -/
theorem run_decBuf (cs : List Byte) (s : State) : ∃ t, RunEmits (assembleWords (decBuf cs)) s t
      (feed s.word s.m (memberDigits s.alphabet cs)).items ∧
    t.word = (feed s.word s.m (memberDigits s.alphabet cs)).word ∧
    t.m = (feed s.word s.m (memberDigits s.alphabet cs)).m := by
  induction cs generalizing s with
  | nil => exact ⟨_, .nil s, rfl, rfl⟩
  | cons c cs ih =>
    have hrun : runCommand (encode (.decChar c)) s = execDecChar c s := runCommand_encode rfl s
    cases hc : s.alphabet.code c with
    | none =>
      have hdigits : memberDigits s.alphabet (c :: cs) = memberDigits s.alphabet cs := List.filterMap_cons_none hc
      obtain ⟨t, h, hregs⟩ := ih (s.answered s.word s.m Response.plain)
      rw [hdigits]
      exact ⟨t, h.cons (hrun.trans (execDecChar_none s hc)), hregs⟩
    | some d =>
      have hdigits : memberDigits s.alphabet (c :: cs) = d :: memberDigits s.alphabet cs := List.filterMap_cons_some hc
      rw [hdigits]
      by_cases hm : s.m.toNat = 4
      · obtain ⟨t, h, hregs⟩ :=
          ih (s.answered 0 0 (Response.items (wordBytes 4 (accumulate s.word s.m d))))
        have h' := h.cons (hrun.trans (execDecChar_flush s hc hm))
        rw [Response.itemList_items _ (by simp)] at h'
        rw [feed_cons_flush hm]
        exact ⟨t, h', hregs⟩
      · obtain ⟨t, h, hregs⟩ :=
          ih (s.answered (accumulate s.word s.m d) (BitVec.ofNat 3 (s.m.toNat + 1)) Response.plain)
        rw [feed_cons_open hm]
        exact ⟨t, h.cons (hrun.trans (execDecChar_open s hc hm)), hregs⟩

/-- `DEC.STR` emits what the fed decoder and the final flush emit, and leaves the decoder cleared. -/
theorem run_decStr (cs : List Byte) (s : State) : ∃ t, RunEmits (assembleWords (decStr cs)) s t
    (feed s.word s.m (memberDigits s.alphabet cs)).flushed ∧ t.StreamMayBegin := by
  obtain ⟨t, h, hw, hm⟩ := run_decBuf cs s
  have hr : runCommand (encode .decFinal) t = _ := (runCommand_encode rfl t).trans (execDecFinal_eq t)
  have h' := h.append ((RunEmits.nil _).cons hr)
  rw [List.append_nil, hw, hm] at h'
  have hsplit : assembleWords (decStr cs) = assembleWords (decBuf cs) ++ [encode .decFinal] := List.map_append
  rw [hsplit]
  exact ⟨_, h', rfl, rfl⟩

/-! ## The members of a character sequence -/

theorem memberDigits_filter (a : Alphabet) (cs : List Byte) :
    memberDigits a (cs.filter a.member) = memberDigits a cs := by
  rw [memberDigits, List.filterMap_filter, memberDigits]
  congr 1
  funext c
  cases hc : a.code c <;> simp [Alphabet.member, hc]

theorem memberDigits_length (a : Alphabet) (cs : List Byte) :
    (memberDigits a cs).length = (cs.filter a.member).length := by
  rw [memberDigits, List.length_filterMap_eq_countP, List.countP_eq_length_filter]
  rfl

/-- The members among the characters of digits are those digits. -/
theorem memberDigits_map_char {a : Alphabet} (hv : a.Valid) (ds : List Digit) : memberDigits a (ds.map a.char) = ds := by
  have hcode : a.code ∘ a.char = some := funext hv.code_char
  rw [memberDigits, List.filterMap_map, hcode, List.filterMap_some]

/-- Settles O30: both sequences feed the decoder the same digits (`memberDigits_filter`). -/
theorem nonMembersAreInvisible : Obligations.NonMembersAreInvisible := by
  intro s cs
  obtain ⟨t, ht, htm, htw⟩ := run_decStr cs s
  obtain ⟨u, hu, hum, huw⟩ := run_decStr (cs.filter s.alphabet.member) s
  refine ⟨t, u, ht.run_eq, hu.run_eq, ?_, htw.trans huw.symm, htm.trans hum.symm⟩
  rw [ht.newItems_eq, hu.newItems_eq, memberDigits_filter]

/-! ## How much a fed decoder emits -/

/-- With `M` at most 4 the final flush emits the M - 1 low bytes of `WORD`. -/
theorem flushed_feed_nil {m : BitVec 3} (hm : m.toNat ≤ 4) (w : Word) :
    (feed w m []).flushed = wordBytes (m.toNat - 1) w := by
  have hlen : (wordBytes (m.toNat - 1) w).length ≤ 5 := by rw [wordBytes_length]; omega
  rw [Fed.flushed, feed, List.nil_append, trailingBytes_eq_wordBytes, Response.itemList_items _ hlen]

theorem flushed_feed_cons_flush {w : Word} {m : BitVec 3} (hm : m.toNat = 4) (d : Digit) (ds : List Digit) :
    (feed w m (d :: ds)).flushed = wordBytes 4 (accumulate w m d) ++ (feed 0 0 ds).flushed := by
  rw [feed_cons_flush hm, Fed.flushed, Fed.flushed, List.append_assoc]

/-- The decoded length counts the digits already held with those fed (41_length.md R101). -/
theorem flushed_feed_length (ds : List Digit) {m : BitVec 3} (hm : m.toNat ≤ 4) (w : Word) :
    (feed w m ds).flushed.length = dlen (m.toNat + ds.length) := by
  induction ds generalizing w m with
  | nil =>
    rw [flushed_feed_nil hm, wordBytes_length, List.length_nil, dlen]
    omega
  | cons d ds ih =>
    by_cases h4 : m.toNat = 4
    · have ih : (feed 0 0 ds).flushed.length = dlen (0 + ds.length) := ih (m := 0) (by decide) 0
      rw [flushed_feed_cons_flush h4, List.length_append, wordBytes_length, ih, List.length_cons, dlen, dlen]
      omega
    · have hcount : (BitVec.ofNat 3 (m.toNat + 1)).toNat = m.toNat + 1 := by rw [BitVec.toNat_ofNat]; omega
      rw [feed_cons_open h4, ih (by omega), hcount, List.length_cons]
      congr 1
      omega

/-- Settles O31: with nothing held, as many bytes as the decoded length of the members (`flushed_feed_length`). -/
theorem decodedStreamHasDecodedLength : Obligations.DecodedStreamHasDecodedLength := by
  rintro s cs ⟨hm, -⟩
  obtain ⟨t, h, ht⟩ := run_decStr cs s
  refine ⟨t, h.run_eq, ?_, ht⟩
  rw [h.newItems_eq, flushed_feed_length _ (by rw [hm]; decide), memberDigits_length, hm]
  exact congrArg dlen (Nat.zero_add _)

/-! ## Groups of digits -/

/-- One more digit on the number that fewer than five digits spell (43_decoder.md R140). -/
theorem accumulate_digitValue {ds : List Digit} (h : ds.length ≤ 4) (d : Digit) :
    accumulate (BitVec.ofNat 32 (digitValue ds)) (BitVec.ofNat 3 ds.length) d =
      BitVec.ofNat 32 (digitValue (ds ++ [d])) := by
  have hcount : (BitVec.ofNat 3 ds.length).toNat = ds.length := by rw [BitVec.toNat_ofNat]; omega
  rw [accumulate, hcount, digitValue_append, BitVec.ofNat_add]

/-- While the group is open, `WORD` is the number its digits spell and `M` their count. -/
theorem feed_open (ds : List Digit) {held : List Digit} (h : held.length + ds.length ≤ 4) (rest : List Digit) :
    feed (BitVec.ofNat 32 (digitValue held)) (BitVec.ofNat 3 held.length) (ds ++ rest) =
      feed (BitVec.ofNat 32 (digitValue (held ++ ds))) (BitVec.ofNat 3 (held ++ ds).length) rest := by
  induction ds generalizing held with
  | nil => rw [List.append_nil, List.nil_append]
  | cons d ds ih =>
    rw [List.length_cons] at h
    have hcount : (BitVec.ofNat 3 held.length).toNat = held.length := by rw [BitVec.toNat_ofNat]; omega
    have ih := ih (held := held ++ [d]) (by rw [List.length_append, List.length_singleton]; omega)
    rw [List.cons_append, feed_cons_open (by omega), accumulate_digitValue (by omega), hcount,
      List.append_cons held d ds, ← ih, List.length_append, List.length_singleton]

theorem feed_zero_open {ds : List Digit} (h : ds.length ≤ 4) (rest : List Digit) :
    feed 0 0 (ds ++ rest) = feed (BitVec.ofNat 32 (digitValue ds)) (BitVec.ofNat 3 ds.length) rest :=
  feed_open (held := []) ds (by simpa using h) rest

/-- Five digits flush the 4 low bytes of the number they spell and leave the decoder cleared. -/
theorem feed_zero_group {ds : List Digit} (h : ds.length = 5) (rest : List Digit) :
    feed 0 0 (ds ++ rest) =
      { feed 0 0 rest with items := wordBytes 4 (BitVec.ofNat 32 (digitValue ds)) ++ (feed 0 0 rest).items } := by
  obtain ⟨init, last, rfl⟩ := List.eq_nil_or_concat' ds |>.resolve_left (by rintro rfl; cases h)
  have hinit : init.length = 4 := by simpa using h
  rw [List.append_assoc, feed_zero_open hinit.le, List.singleton_append, feed_cons_flush (by rw [hinit]; rfl),
    accumulate_digitValue hinit.le]

theorem flushed_feed_group_append {ds : List Digit} (h : ds.length = 5) (rest : List Digit) :
    (feed 0 0 (ds ++ rest)).flushed = wordBytes 4 (BitVec.ofNat 32 (digitValue ds)) ++ (feed 0 0 rest).flushed := by
  rw [feed_zero_group h, Fed.flushed, Fed.flushed, List.append_assoc]

/-- `DEC.STR` of one group emits one byte fewer than its digits, the low ones of the number they spell. -/
theorem flushed_feed_group {ds : List Digit} (h : ds.length ≤ 5) :
    (feed 0 0 ds).flushed = wordBytes (ds.length - 1) (BitVec.ofNat 32 (digitValue ds)) := by
  rw [← List.append_nil ds]
  obtain h4 | h5 := Nat.le_or_eq_of_le_succ h
  · have hcount : (BitVec.ofNat 3 ds.length).toNat = ds.length := by rw [BitVec.toNat_ofNat]; omega
    rw [feed_zero_open h4, flushed_feed_nil (by omega), hcount, List.append_nil]
  · rw [flushed_feed_group_append h5, List.append_nil, h5]
    exact List.append_nil _

/-- Byte j below 4 of the low 32 bits of a number is byte j of the number. -/
theorem dataByte_ofNat (v : Nat) {j : Nat} (h : j < 4) :
    dataByte (BitVec.ofNat 32 v) j = BitVec.ofNat 8 (v / 256 ^ j) := by
  apply BitVec.eq_of_toNat_eq
  rw [dataByte_toNat, BitVec.toNat_ofNat, BitVec.toNat_ofNat]
  interval_cases j <;> omega

/-- Settles O26: the characters of digits feed those digits, which leave the group open (`feed_zero_open`) or complete
it (`feed_zero_group`). -/
theorem decoderSpellsGroup : Obligations.DecoderSpellsGroup := by
  rintro s ds hv ⟨hm, hw⟩
  obtain ⟨t, h, htw, htm⟩ := run_decBuf (ds.map s.alphabet.char) s
  rw [memberDigits_map_char hv, hm, hw] at h htw htm
  refine ⟨fun hlen => ?_, fun hlen => ?_⟩
  · have hfed := feed_zero_open hlen []
    rw [List.append_nil] at hfed
    rw [hfed] at h htw htm
    have hlt : digitValue ds < 2 ^ 32 :=
      (digitValue_lt ds).trans_le ((Nat.pow_le_pow_right (by decide) hlen).trans (by decide))
    refine ⟨t, h.run_eq, ?_, ?_, h.newItems_eq⟩
    · rw [htw]
      exact (BitVec.toNat_ofNat _ _).trans (Nat.mod_eq_of_lt hlt)
    · rw [htm]
      exact (BitVec.toNat_ofNat _ _).trans (Nat.mod_eq_of_lt (by omega))
  · have hfed := feed_zero_group hlen []
    rw [List.append_nil] at hfed
    rw [hfed] at h htw htm
    refine ⟨t, h.run_eq, htw, htm, h.newItems_eq.trans ((List.append_nil _).trans ?_)⟩
    exact List.map_congr_left fun j hj => dataByte_ofNat (digitValue ds) (List.mem_range.1 hj)

/-- Settles O33: the bytes of one group (`flushed_feed_group`) hold all of a number that fits them. -/
theorem canonicalGroupsLoseNothing : Obligations.CanonicalGroupsLoseNothing := by
  rintro s cs ⟨hm, hw⟩ ⟨-, hlen, hlt⟩
  obtain ⟨t, h, ht⟩ := run_decStr cs s
  have hitems := h.newItems_eq
  rw [hm, hw, flushed_feed_group hlen] at hitems
  refine ⟨t, h.run_eq, ht, ?_, ?_⟩
  · rw [hitems, wordBytes_length]
  · have hfit : 256 ^ ((memberDigits s.alphabet cs).length - 1) ≤ 2 ^ 32 :=
      (Nat.pow_le_pow_right (by decide) (Nat.sub_le_sub_right hlen 1)).trans (by decide)
    rw [hitems, leValue_wordBytes, BitVec.toNat_ofNat, Nat.mod_eq_of_lt (hlt.trans_le hfit), Nat.mod_eq_of_lt hlt]

/-! ## Decoding an encoding -/

/-- The digits of a block spell its value (42_encoder.md R121). -/
theorem digitValue_blockDigits {bs : List Byte} (h : bs.length ≤ 4) :
    digitValue (digits (bs.length + 1) (leValue bs)) = leValue bs := by
  rw [digitValue_digits, Nat.mod_eq_of_lt (leValue_lt_pow85 h)]

/-- The low bytes of a block's value are the block. -/
theorem wordBytes_leValue {bs : List Byte} (h : bs.length ≤ 4) :
    wordBytes bs.length (BitVec.ofNat 32 (leValue bs)) = bs := by
  have hlt : leValue bs < 2 ^ 32 :=
    (leValue_lt bs).trans_le ((Nat.pow_le_pow_right (by decide) h).trans (by decide))
  have hval : (BitVec.ofNat 32 (leValue bs)).toNat = leValue bs := by rw [BitVec.toNat_ofNat, Nat.mod_eq_of_lt hlt]
  apply List.ext_getElem (wordBytes_length _ _)
  intro j _ hj
  simp only [wordBytes, List.getElem_map, List.getElem_range, dataByte_eq_getD hval, List.getD_eq_getElem _ _ hj]

/-- A block of up to four bytes comes back from its digits. -/
theorem flushed_feed_block {bs : List Byte} (h : bs.length ≤ 4) :
    (feed 0 0 (digits (bs.length + 1) (leValue bs))).flushed = bs := by
  rw [flushed_feed_group (by rw [digits_length]; omega), digits_length, digitValue_blockDigits h]
  exact wordBytes_leValue h

/-- The digits `ENC.BUF` emits decode to the bytes it was given: a full block's five digits are one group of the
decoder, and so each block is decoded on its own. -/
theorem flushed_feed_bufDigits : (bs : List Byte) → (feed 0 0 (bufDigits bs)).flushed = bs
  | b0 :: b1 :: b2 :: b3 :: rest => by
    have hval : digitValue (digits 5 (leValue [b0, b1, b2, b3])) = leValue [b0, b1, b2, b3] :=
      digitValue_blockDigits (by simp)
    have hbytes : wordBytes 4 (BitVec.ofNat 32 (leValue [b0, b1, b2, b3])) = [b0, b1, b2, b3] :=
      wordBytes_leValue (by simp)
    rw [bufDigits, flushed_feed_group_append (digits_length _ _), hval, hbytes, flushed_feed_bufDigits rest]
    rfl
  | [b0, b1, b2] => flushed_feed_block (bs := [b0, b1, b2]) (by simp)
  | [b0, b1] => flushed_feed_block (bs := [b0, b1]) (by simp)
  | [b0] => flushed_feed_block (bs := [b0]) (by simp)
  | [] => rfl

/-- Settles O32: whatever non-members stand between, the members feed the decoder the digits that were emitted, and
those decode to the bytes (`flushed_feed_bufDigits`). -/
theorem decodeOfNoisyEncodingIsIdentity : Obligations.DecodeOfNoisyEncodingIsIdentity := by
  rintro s bs hv ⟨hm, hw⟩
  obtain ⟨t, h, htw, htm⟩ := run_encBuf bs s
  refine ⟨t, h.run_eq, fun cs hcs => ?_⟩
  obtain ⟨u, h', hu⟩ := run_decStr cs t
  have hdigits : memberDigits t.alphabet cs = bufDigits bs := by
    rw [h.alphabet_eq, ← memberDigits_filter, hcs, h.newItems_eq, memberDigits_map_char hv]
  refine ⟨u, h'.run_eq, ?_, hu⟩
  rw [h'.newItems_eq, hdigits, htw, htm, hw, hm, flushed_feed_bufDigits]

end Sys2Proof.Machine
